-- ==== Sys2Proof/Word.lean ====
section
/-! DEFINITION. The value types of the block (spec/00_scope.md R8, R9). -/

namespace Sys2Proof

/-- `uint8`: one byte of the instruction stream, a register field, a fault code (R9). -/
abbrev Byte := BitVec 8

/-- The 16-bit immediate field of `load` (R64). -/
abbrev Half := BitVec 16

/-- The 32-bit pattern of an `int32` register or of the `uint32` remainder cell; `toInt` is its signed value
and `toNat` its unsigned one (R9). -/
abbrev Word := BitVec 32

/-- `pcval`: the 64-bit pattern of a program counter; `toInt` is its signed value (R9, R25; `PC_WIDTH` of R7). -/
abbrev PcVal := BitVec 64

end Sys2Proof
end

