-- ==== Sys2Proof/Machine/State.lean ====
section
/-! DEFINITION. The state of the machine: the block's architectural state (spec/10_state.md R20), the program
memory it fetches from (spec/20_memory.md R40), and the model's own result port. -/

namespace Sys2Proof.Machine

/-- `run_state` (R32). The encoding 3 is never produced and is not represented. -/
inductive RunState where
  /-- no run is in progress -/
  | idle
  /-- a run-to-completion is in progress -/
  | running
  /-- a fault stopped the block, until RESET -/
  | faulted
  deriving DecidableEq, Repr

/-- The faults the block raises (spec/60_exceptions.md R140). Their codes are `FaultKind.code` in Ops.lean. -/
inductive FaultKind where
  | decode
  | addressing
  | divideByZero
  | divideOverflow
  | fetchAddress
  | truncatedInstruction
  deriving DecidableEq, Repr

/-- What a step returns beside the next state (spec/40_execution.md R90). -/
inductive StepResult where
  /-- the pc was at or past the end of the program -/
  | notExecuted
  /-- one instruction executed; `cont` is the continue signal -/
  | executed (cont : Bool)
  /-- a fault was raised, or had been raised earlier; `kind` is its code -/
  | fault (kind : Byte)
  deriving DecidableEq, Repr

/-- Program memory P: its bytes as (offset, byte) cells, in the canonical form `Memory.wf` of Ops.lean, offsets
exactly 0, 1, 2, … in order. An offset that is not listed has no byte (R40, R43; log 4). -/
abbrev Memory := List Host.Cell

structure State where
  /-- the general registers x[0..31] (R21) -/
  regs : Vector Word 32
  /-- byte offset of the next instruction to fetch, signed (R25) -/
  pc : PcVal
  /-- result of the most recent comparison (R29) -/
  equalFlag : Bool
  /-- remainder of the most recent successful `div`, unsigned (R30) -/
  remainder : Word
  /-- whether a run is in progress or a fault has stopped the block (R32) -/
  runState : RunState
  /-- code of the fault that stopped the block, 0 if none (R32, R140) -/
  faultKind : Byte
  /-- address of the instruction that faulted, signed (R32) -/
  faultPc : PcVal
  /-- program memory P (R40, R41) -/
  prog : Memory
  /-- the MODEL'S OWN result port: what the last step returned (R90); none since reset (log 2) -/
  result : Option StepResult
  deriving DecidableEq, Repr

/-- Power-on: every piece of state at the reset value of R34, and an empty program memory (R161). -/
def State.reset : State where
  regs := Vector.replicate 32 0
  pc := 0
  equalFlag := false
  remainder := 0
  runState := .idle
  faultKind := 0
  faultPc := 0
  prog := []
  result := none

/-- Reasons for the MODEL to stop. The block's own faults (R140) are no such reason: taking one is a next state. -/
inductive Fault where
  /-- The fetch (Machine/Fetch.lean) met an offset inside len(P) that no cell of program memory lists. R43 says this
  never happens, and it cannot in a canonical program memory. Safe: the model stops. -/
  | absentByte (offset : Nat)
  deriving DecidableEq, Repr

inductive Refusal where
  /-- Raised only by an arm of `exec` for an instruction that has no meaning yet; there is none. Safe. -/
  | notModelled (mnemonic : String)
  deriving DecidableEq, Repr

/-- The outcome of a step or of a meaning. -/
abbrev Out := Host.Outcome State Fault Refusal

end Sys2Proof.Machine
end

