-- ==== Sys2Proof/Machine/Ops.lean ====
section
/-! DEFINITION. The named operations over program memory, registers and status, and fault entry. -/

namespace Sys2Proof.Machine

/-! Program memory (spec/20_memory.md). -/

/-- `len(P)` (R41). -/
def Memory.len (P : Memory) : Nat := P.length

/-- `MemRead(offset, 1)` (R43); none where no byte is listed. -/
def Memory.read : Memory → Nat → Option Byte
  | [], _ => none
  | (k, b) :: cells, offset => if k = offset then some b else Memory.read cells offset

/-- The cells of a byte sequence from an offset on. -/
def Memory.cellsFrom : Nat → List Byte → Memory
  | _, [] => []
  | k, b :: bytes => (k, b) :: Memory.cellsFrom (k + 1) bytes

/-- A program memory that holds exactly these bytes, from offset 0. -/
def Memory.ofBytes (bytes : List Byte) : Memory := Memory.cellsFrom 0 bytes

/-- The program bytes in increasing offset order (R152). -/
def Memory.bytes (P : Memory) : List Byte := P.map (fun c => c.2)

/-- The bytes added at `len(P)` onward, in order; no earlier byte changes (R41). -/
def Memory.append (P : Memory) (bytes : List Byte) : Memory := P ++ Memory.cellsFrom P.len bytes

/-- The `n` bytes from an offset on, as far as they are listed, in increasing offset order (R44). -/
def Memory.bytesAt (P : Memory) : Nat → Nat → List Byte
  | _, 0 => []
  | offset, n + 1 =>
    match P.read offset with
    | none => []
    | some b => b :: P.bytesAt (offset + 1) n

/-- The listed offsets are exactly `k, k + 1, k + 2, …` in order. -/
def Memory.contiguousFrom : Nat → Memory → Bool
  | _, [] => true
  | k, (offset, _) :: cells => offset == k && Memory.contiguousFrom (k + 1) cells

/-- The canonical form of program memory: a sequence of bytes at offsets 0 to `len(P) - 1` (R40). Offsets rise
strictly, and equal programs are equal lists. -/
def Memory.wf (P : Memory) : Bool := Memory.contiguousFrom 0 P

/-! Registers and the commit of an instruction (spec/40_execution.md R93). -/

/-- General register `i` (R21). -/
def State.x (s : State) (i : Fin 32) : Word := s.regs[i.val]

def State.setReg (s : State) (i : Fin 32) (v : Word) : State := { s with regs := s.regs.set i.val v }

def State.setRemainder (s : State) (v : Word) : State := { s with remainder := v }

def State.setEqualFlag (s : State) (f : Bool) : State := { s with equalFlag := f }

/-- What the step returns, on the result port (R90). -/
def State.report (s : State) (r : StepResult) : State := { s with result := some r }

/-- The last part of every commit: the next pc, and the result EXECUTED with its continue signal (R90, R93, R95). -/
def State.retire (s : State) (pc : PcVal) (cont : Bool) : State := { s.report (.executed cont) with pc := pc }

/-! Faults (spec/60_exceptions.md). -/

/-- The fault codes of R140. -/
def FaultKind.code : FaultKind → Byte
  | .decode => 1
  | .addressing => 2
  | .divideByZero => 3
  | .divideOverflow => 4
  | .fetchAddress => 5
  | .truncatedInstruction => 6

/-- Fault entry, the one way a fault is taken (R94, R143): the cause and the address of the faulting instruction are
recorded and the block is FAULTED; no general register, remainder, flag or pc changes. It gives a NEXT state (log 8). -/
def State.raise (s : State) (k : FaultKind) : State :=
  { s.report (.fault k.code) with runState := .faulted, faultKind := k.code, faultPc := s.pc }

/-- There is no return from a fault but RESET (R145, R160): every piece of the block's state at its reset value;
program memory is kept. -/
def State.resetBlock (s : State) : State := { State.reset with prog := s.prog }

/-- The encoding of `run_state` (R32). -/
def RunState.code : RunState → BitVec 2
  | .idle => 0
  | .running => 1
  | .faulted => 2

/-- The source's signal "whether execution may continue" (R90). -/
def StepResult.continueSignal : StepResult → Bool
  | .executed cont => cont
  | .notExecuted => false
  | .fault _ => false

/-- An outcome with its next state changed. -/
def mapNext (f : State → State) : Out → Out
  | .next s => .next (f s)
  | .fault r => .fault r
  | .refused r => .refused r

end Sys2Proof.Machine
end

