-- ==== Sys2Proof/Machine/Operands.lean ====
section
/-! DEFINITION. The operand forms: a register operand through the register-file port, and the immediate of `load`. -/

namespace Sys2Proof.Machine

/-- The register a raw register field names; none for 32 to 255 (spec/10_state.md R22). -/
def regIndex (field : Byte) : Option (Fin 32) :=
  if h : field.toNat < 32 then some ⟨field.toNat, h⟩ else none

/-- The write port's check of an index: `AddressingFault` for 32 to 255 (R22, R92). -/
def withDst (field : Byte) (s : State) (k : Fin 32 → Out) : Out :=
  match regIndex field with
  | some i => k i
  | none => .next (s.raise .addressing)

/-- The read port: the value the register held before the step, or `AddressingFault` (R22, R23, R92). -/
def withSrc (field : Byte) (s : State) (k : Word → Out) : Out :=
  withDst field s (fun i => k (s.x i))

/-- `sext_32(imm16)` (R9, R64). -/
def sextImm (imm16 : Half) : Word := imm16.signExtend 32

/-- `sext_64(x[r])` (R9, R125). -/
def sextPc (v : Word) : PcVal := v.signExtend 64

end Sys2Proof.Machine
end

