-- ==== Sys2Proof/Machine/Alu.lean ====
section
/-! DEFINITION. The ALU's integer operations: exact integer arithmetic, narrowed at the end
(spec/00_scope.md R9, spec/42_arithmetic.md R105 to R111). -/

namespace Sys2Proof.Machine

/-- `wrap32(n)`: the unique `int32` congruent to `n` modulo 2^32 (R9). -/
def wrap32 (n : Int) : Word := BitVec.ofInt 32 n

/-- `wrap32(A + B)` (R106) -/
def aluAdd (A B : Word) : Word := wrap32 (A.toInt + B.toInt)

/-- `wrap32(A - B)` (R107) -/
def aluSub (A B : Word) : Word := wrap32 (A.toInt - B.toInt)

/-- `wrap32(A * B)`, the product exact (R108) -/
def aluMul (A B : Word) : Word := wrap32 (A.toInt * B.toInt)

/-- The arithmetic fault of a division: a zero divisor first, then -2^31 / -1 (R109, R142). -/
def divFault (A B : Word) : Option FaultKind :=
  if B.toInt = 0 then some .divideByZero
  else if A.toInt = -2147483648 ∧ B.toInt = -1 then some .divideOverflow
  else none

/-- `A quot B`, rounded toward zero, as an integer (R109, decision D8). -/
def quotient (A B : Word) : Int := A.toInt.tdiv B.toInt

/-- The quotient written to `x[dst]` (R109). -/
def aluQuot (A B : Word) : Word := wrap32 (quotient A B)

/-- `bits32(r)` for the remainder `r = A - q * B` (R109). -/
def aluRem (A B : Word) : Word := BitVec.ofInt 32 (A.toInt - quotient A B * B.toInt)

end Sys2Proof.Machine
end

