-- ==== Sys2Proof/Machine/PcUnit.lean ====
section
/-! DEFINITION. The program-counter unit (spec/44_control.md R125): the next pc from the instruction's address `a`,
in the 64-bit two's complement of `pcval` (log 1). -/

namespace Sys2Proof.Machine

/-- SEQ: `a + Len(op)`. -/
def seqPc (a : PcVal) (len : Nat) : PcVal := a + BitVec.ofNat 64 len

/-- ABS: `sext_64(x[r])`. -/
def absPc (v : Word) : PcVal := sextPc v

/-- REL: `(a + 2) + sext_64(x[r])`. -/
def relPc (a : PcVal) (v : Word) : PcVal := seqPc a 2 + sextPc v

end Sys2Proof.Machine
end

