-- ==== Sys2Proof/Machine/Arith.lean ====
section
/-! DEFINITION. The meanings of `add`, `sub`, `mul` and `div` (spec/42_arithmetic.md). -/

namespace Sys2Proof.Machine

/-- What `add`, `sub` and `mul` share (R105): indices checked in the order src1, src2, dst, both sources read from
the old state, one register written. -/
def arith (f : Word → Word → Word) (src1 src2 dst : Byte) (s : State) : Out :=
  withSrc src1 s fun A => withSrc src2 s fun B => withDst dst s fun d =>
    .next ((s.setReg d (f A B)).retire (seqPc s.pc 4) true)

/-- R106 -/
def execAdd (src1 src2 dst : Byte) (s : State) : Out := arith aluAdd src1 src2 dst s

/-- R107 -/
def execSub (src1 src2 dst : Byte) (s : State) : Out := arith aluSub src1 src2 dst s

/-- R108 -/
def execMul (src1 src2 dst : Byte) (s : State) : Out := arith aluMul src1 src2 dst s

/-- R109: the register checks, then the arithmetic faults, then the quotient to `x[dst]` and the remainder's bit
pattern to `remainder`. -/
def execDiv (src1 src2 dst : Byte) (s : State) : Out :=
  withSrc src1 s fun A => withSrc src2 s fun B => withDst dst s fun d =>
    match divFault A B with
    | some k => .next (s.raise k)
    | none => .next (((s.setReg d (aluQuot A B)).setRemainder (aluRem A B)).retire (seqPc s.pc 4) true)

end Sys2Proof.Machine
end

