-- ==== Sys2Proof/Machine/Flags.lean ====
section
/-! DEFINITION. The one flag, `equalFlag`, and the six relations that compute it: signed `int32` comparisons
(spec/43_compare.md R115 to R121, spec/10_state.md R29, R31). -/

namespace Sys2Proof.Machine

/-- `A = B` (R116) -/
def relEq (A B : Word) : Bool := decide (A.toInt = B.toInt)

/-- `A != B` (R117) -/
def relNeq (A B : Word) : Bool := decide (A.toInt ≠ B.toInt)

/-- `A >= B`, signed (R118) -/
def relGte (A B : Word) : Bool := decide (A.toInt ≥ B.toInt)

/-- `A <= B`, signed (R119) -/
def relLte (A B : Word) : Bool := decide (A.toInt ≤ B.toInt)

/-- `A < B`, signed (R120) -/
def relLt (A B : Word) : Bool := decide (A.toInt < B.toInt)

/-- `A > B`, signed (R121) -/
def relGt (A B : Word) : Bool := decide (A.toInt > B.toInt)

end Sys2Proof.Machine
end

