-- ==== Sys2Proof/Machine/Compare.lean ====
section
/-! DEFINITION. The meanings of the six comparisons (spec/43_compare.md). The third operand byte is reserved: it is
neither checked nor used (spec/30_encoding.md R68). -/

namespace Sys2Proof.Machine

/-- What the comparisons share (R115). -/
def comparison (rel : Word → Word → Bool) (src1 src2 : Byte) (s : State) : Out :=
  withSrc src1 s fun A => withSrc src2 s fun B =>
    .next ((s.setEqualFlag (rel A B)).retire (seqPc s.pc 4) true)

/-- R116 -/
def execEq (src1 src2 _rsv : Byte) (s : State) : Out := comparison relEq src1 src2 s

/-- R117 -/
def execNeq (src1 src2 _rsv : Byte) (s : State) : Out := comparison relNeq src1 src2 s

/-- R118 -/
def execGte (src1 src2 _rsv : Byte) (s : State) : Out := comparison relGte src1 src2 s

/-- R119 -/
def execLte (src1 src2 _rsv : Byte) (s : State) : Out := comparison relLte src1 src2 s

/-- R120 -/
def execLt (src1 src2 _rsv : Byte) (s : State) : Out := comparison relLt src1 src2 s

/-- R121 -/
def execGt (src1 src2 _rsv : Byte) (s : State) : Out := comparison relGt src1 src2 s

end Sys2Proof.Machine
end

