-- ==== Sys2Proof/Machine/Control.lean ====
section
/-! DEFINITION. The meanings of `jmp`, `jmpf`, `jmpe`, `hlt` and `illegal` (spec/44_control.md). A jump's target is
not checked when the jump executes; the following step deals with it (R125). -/

namespace Sys2Proof.Machine

/-- R126 -/
def execJmp (r : Byte) (s : State) : Out :=
  withSrc r s fun T => .next (s.retire (absPc T) true)

/-- R127 -/
def execJmpf (r : Byte) (s : State) : Out :=
  withSrc r s fun D => .next (s.retire (relPc s.pc D) true)

/-- R128: the register is read and its index checked whatever the flag holds; the flag is not cleared. -/
def execJmpe (r : Byte) (s : State) : Out :=
  withSrc r s fun T => .next (s.retire (if s.equalFlag then absPc T else seqPc s.pc 2) true)

/-- R129: the pc advances by exactly 1 and the continue signal is false. -/
def execHlt (s : State) : Out := .next (s.retire (seqPc s.pc 1) false)

/-- R130: `DecodeFault`, before any operand byte is read. -/
def execIllegal (s : State) : Out := .next (s.raise .decode)

end Sys2Proof.Machine
end

