-- ==== Sys2Proof/Machine/Load.lean ====
section
/-! DEFINITION. The meaning of `load` (spec/41_load.md). -/

namespace Sys2Proof.Machine

/-- R100 -/
def execLoad (dst : Byte) (imm16 : Half) (s : State) : Out :=
  withDst dst s fun d => .next ((s.setReg d (sextImm imm16)).retire (seqPc s.pc 4) true)

end Sys2Proof.Machine
end

