-- ==== Sys2Proof/Syntax.lean ====
section
/-! DEFINITION. The instructions: one constructor per row of spec/opcode_table.json, operands in the order of
the formats of spec/30_encoding.md R62. A register operand is the raw byte of the encoding (R63): 32 to 255 are
encodable and fault only when the register is accessed (R22). -/

namespace Sys2Proof

inductive Instr where
  /-- `load $dst #imm16` (R100) -/
  | load (dst : Byte) (imm16 : Half)
  /-- `add $src1 $src2 $dst` (R106) -/
  | add (src1 src2 dst : Byte)
  /-- `sub $src1 $src2 $dst` (R107) -/
  | sub (src1 src2 dst : Byte)
  /-- `mul $src1 $src2 $dst` (R108) -/
  | mul (src1 src2 dst : Byte)
  /-- `div $src1 $src2 $dst` (R109) -/
  | div (src1 src2 dst : Byte)
  /-- `hlt` (R129) -/
  | hlt
  /-- `jmp $r` (R126) -/
  | jmp (r : Byte)
  /-- `jmpf $r` (R127) -/
  | jmpf (r : Byte)
  /-- `eq $src1 $src2 $rsv` (R116); `rsv` is reserved and ignored (R68) -/
  | eq (src1 src2 rsv : Byte)
  /-- `neq $src1 $src2 $rsv` (R117) -/
  | neq (src1 src2 rsv : Byte)
  /-- `gte $src1 $src2 $rsv` (R118) -/
  | gte (src1 src2 rsv : Byte)
  /-- `lte $src1 $src2 $rsv` (R119) -/
  | lte (src1 src2 rsv : Byte)
  /-- `lt $src1 $src2 $rsv` (R120) -/
  | lt (src1 src2 rsv : Byte)
  /-- `gt $src1 $src2 $rsv` (R121) -/
  | gt (src1 src2 rsv : Byte)
  /-- `jmpe $r` (R128) -/
  | jmpe (r : Byte)
  /-- the illegal sentinel, which every opcode byte 0x0F to 0xFF decodes to (R66, R130) -/
  | illegal
  deriving DecidableEq, Repr

end Sys2Proof
end

