-- ==== Sys2Proof/Machine/Dispatch.lean ====
section
/-! DEFINITION. One arm per instruction: phases 3 to 5 of the step of spec/40_execution.md R91. -/

namespace Sys2Proof.Machine

def exec (i : Instr) (s : State) : Host.Outcome State Fault Refusal :=
  match i with
  | .load dst imm16 => Sys2Proof.Machine.execLoad dst imm16 s
  | .add src1 src2 dst => Sys2Proof.Machine.execAdd src1 src2 dst s
  | .sub src1 src2 dst => Sys2Proof.Machine.execSub src1 src2 dst s
  | .mul src1 src2 dst => Sys2Proof.Machine.execMul src1 src2 dst s
  | .div src1 src2 dst => Sys2Proof.Machine.execDiv src1 src2 dst s
  | .hlt => Sys2Proof.Machine.execHlt s
  | .jmp r => Sys2Proof.Machine.execJmp r s
  | .jmpf r => Sys2Proof.Machine.execJmpf r s
  | .eq src1 src2 rsv => Sys2Proof.Machine.execEq src1 src2 rsv s
  | .neq src1 src2 rsv => Sys2Proof.Machine.execNeq src1 src2 rsv s
  | .gte src1 src2 rsv => Sys2Proof.Machine.execGte src1 src2 rsv s
  | .lte src1 src2 rsv => Sys2Proof.Machine.execLte src1 src2 rsv s
  | .lt src1 src2 rsv => Sys2Proof.Machine.execLt src1 src2 rsv s
  | .gt src1 src2 rsv => Sys2Proof.Machine.execGt src1 src2 rsv s
  | .jmpe r => Sys2Proof.Machine.execJmpe r s
  | .illegal => Sys2Proof.Machine.execIllegal s

end Sys2Proof.Machine
end

