-- ==== Sys2Proof/WellFormed.lean ====
section
/-! DEFINITION. Which instructions hold no illegal encoding. spec/30_encoding.md R69 lists the illegal encodings:
an opcode byte of the illegal sentinel, and a register field of 32 to 255 in a field the instruction accesses.
Every immediate and every reserved byte is legal (R68, R69). An ill-formed instruction still decodes and still
executes: it takes its fault (log 9). -/

namespace Sys2Proof

/-- A register field names one of the 32 registers (R22). -/
def regFieldOk (r : Byte) : Bool := decide (r.toNat < 32)

/-- No illegal encoding of R69 stands in the instruction. -/
def Instr.wellFormed : Instr → Bool
  | .load dst _ => regFieldOk dst
  | .add src1 src2 dst => regFieldOk src1 && regFieldOk src2 && regFieldOk dst
  | .sub src1 src2 dst => regFieldOk src1 && regFieldOk src2 && regFieldOk dst
  | .mul src1 src2 dst => regFieldOk src1 && regFieldOk src2 && regFieldOk dst
  | .div src1 src2 dst => regFieldOk src1 && regFieldOk src2 && regFieldOk dst
  | .hlt => true
  | .jmp r => regFieldOk r
  | .jmpf r => regFieldOk r
  | .eq src1 src2 _ => regFieldOk src1 && regFieldOk src2
  | .neq src1 src2 _ => regFieldOk src1 && regFieldOk src2
  | .gte src1 src2 _ => regFieldOk src1 && regFieldOk src2
  | .lte src1 src2 _ => regFieldOk src1 && regFieldOk src2
  | .lt src1 src2 _ => regFieldOk src1 && regFieldOk src2
  | .gt src1 src2 _ => regFieldOk src1 && regFieldOk src2
  | .jmpe r => regFieldOk r
  | .illegal => false

end Sys2Proof
end

