-- ==== Sys2Proof/Decode.lean ====
section
/-! DEFINITION. The instruction decoder and, after it, the encoder (spec/30_encoding.md R60 to R70). The opcode
byte values stand in ONE table, `opcodeTable`, which both read (R65, 93_implementation_defined.md). -/

namespace Sys2Proof

/-- The closed set of 15 opcodes and the illegal sentinel (R2, R13). -/
inductive Opcode where
  | load | add | sub | mul | div | hlt | jmp | jmpf | eq | neq | gte | lte | lt | gt | jmpe | illegal
  deriving DecidableEq, Repr

/-- The opcode byte values of R65, in the declaration order that 90_conflicts.md C1 chooses. -/
def opcodeTable : List (Byte × Opcode) :=
  [(0x00, .load), (0x01, .add), (0x02, .sub), (0x03, .mul), (0x04, .div), (0x05, .hlt), (0x06, .jmp), (0x07, .jmpf)] ++
  [(0x08, .eq), (0x09, .neq), (0x0A, .gte), (0x0B, .lte), (0x0C, .lt), (0x0D, .gt), (0x0E, .jmpe), (0x0F, .illegal)]

def opcodeOfByte : List (Byte × Opcode) → Byte → Opcode
  | [], _ => .illegal
  | (code, op) :: rows, b => if b = code then op else opcodeOfByte rows b

def byteOfOpcode : List (Byte × Opcode) → Opcode → Byte
  | [], _ => 0x0F
  | (code, op') :: rows, op => if op = op' then code else byteOfOpcode rows op

/-- `Decode` of R66: total on every byte; a byte the table does not list is the illegal sentinel. -/
def decodeOpcode (b : Byte) : Opcode := opcodeOfByte opcodeTable b

/-- The opcode's byte (R65). -/
def Opcode.code (op : Opcode) : Byte := byteOfOpcode opcodeTable op

/-- `Len(op)` of R60. The length of `illegal` is nominal: its step faults before any operand is read. -/
def Opcode.length : Opcode → Nat
  | .load | .add | .sub | .mul | .div => 4
  | .eq | .neq | .gte | .lte | .lt | .gt => 4
  | .jmpe | .jmp | .jmpf => 2
  | .hlt => 1
  | .illegal => 1

/-- The opcode of an instruction. -/
def Instr.opcode : Instr → Opcode
  | .load _ _ => .load
  | .add _ _ _ => .add
  | .sub _ _ _ => .sub
  | .mul _ _ _ => .mul
  | .div _ _ _ => .div
  | .hlt => .hlt
  | .jmp _ => .jmp
  | .jmpf _ => .jmpf
  | .eq _ _ _ => .eq
  | .neq _ _ _ => .neq
  | .gte _ _ _ => .gte
  | .lte _ _ _ => .lte
  | .lt _ _ _ => .lt
  | .gt _ _ _ => .gt
  | .jmpe _ => .jmpe
  | .illegal => .illegal

/-- Why a byte sequence is not an instruction. -/
inductive DecodeError where
  /-- there is no byte to decode -/
  | noBytes
  /-- the opcode needs more operand bytes than there are (R60, R91) -/
  | truncated (op : Opcode)
  deriving DecidableEq, Repr

/-- The 16-bit immediate from its two bytes, most significant first (R44, R64). -/
def immOfBytes (hi lo : Byte) : Half := hi ++ lo

/-- The three operand bytes of the 4-byte formats, then what follows the instruction (R62). -/
def takeThree (op : Opcode) (mk : Byte → Byte → Byte → Instr) : List Byte → Except DecodeError (Instr × List Byte)
  | b1 :: b2 :: b3 :: rest => .ok (mk b1 b2 b3, rest)
  | _ => .error (.truncated op)

/-- The one operand byte of format FR (R62). -/
def takeOne (op : Opcode) (mk : Byte → Instr) : List Byte → Except DecodeError (Instr × List Byte)
  | b1 :: rest => .ok (mk b1, rest)
  | _ => .error (.truncated op)

/-- The operand bytes each opcode requires, and no others (R60, R62, R70). -/
def decodeOperands (op : Opcode) (bytes : List Byte) : Except DecodeError (Instr × List Byte) :=
  match op with
  | .load => takeThree .load (fun dst hi lo => .load dst (immOfBytes hi lo)) bytes
  | .add => takeThree .add .add bytes
  | .sub => takeThree .sub .sub bytes
  | .mul => takeThree .mul .mul bytes
  | .div => takeThree .div .div bytes
  | .hlt => .ok (.hlt, bytes)
  | .jmp => takeOne .jmp .jmp bytes
  | .jmpf => takeOne .jmpf .jmpf bytes
  | .eq => takeThree .eq .eq bytes
  | .neq => takeThree .neq .neq bytes
  | .gte => takeThree .gte .gte bytes
  | .lte => takeThree .lte .lte bytes
  | .lt => takeThree .lt .lt bytes
  | .gt => takeThree .gt .gt bytes
  | .jmpe => takeOne .jmpe .jmpe bytes
  | .illegal => .ok (.illegal, bytes)

/-- The instruction at the head of a byte sequence, and the bytes after it (R61, R70). Total: it refuses, by
name, only a sequence that is too short. An opcode byte of 0x0F to 0xFF is the instruction `illegal` (R66). -/
def decode : List Byte → Except DecodeError (Instr × List Byte)
  | [] => .error .noBytes
  | b0 :: rest => decodeOperands (decodeOpcode b0) rest

/-! The encoder. -/

/-- The two bytes of an immediate, most significant first (R44, R84). -/
def immBytes (imm16 : Half) : List Byte := [imm16.extractLsb' 8 8, imm16.extractLsb' 0 8]

/-- The operand bytes in left-to-right order (R62, R84, R87). -/
def Instr.operandBytes : Instr → List Byte
  | .load dst imm16 => dst :: immBytes imm16
  | .add src1 src2 dst => [src1, src2, dst]
  | .sub src1 src2 dst => [src1, src2, dst]
  | .mul src1 src2 dst => [src1, src2, dst]
  | .div src1 src2 dst => [src1, src2, dst]
  | .hlt => []
  | .jmp r => [r]
  | .jmpf r => [r]
  | .eq src1 src2 rsv => [src1, src2, rsv]
  | .neq src1 src2 rsv => [src1, src2, rsv]
  | .gte src1 src2 rsv => [src1, src2, rsv]
  | .lte src1 src2 rsv => [src1, src2, rsv]
  | .lt src1 src2 rsv => [src1, src2, rsv]
  | .gt src1 src2 rsv => [src1, src2, rsv]
  | .jmpe r => [r]
  | .illegal => []

/-- The bytes of an instruction: its opcode byte and its operand bytes (R60, R87). `illegal` encodes as 0x0F (R84;
log 11). -/
def encode (i : Instr) : List Byte := i.opcode.code :: i.operandBytes

/-! Instruction words as spec/opcode_table.json numbers their bits. -/

/-- The `n` low bytes of a number, most significant first. -/
def bigEndianBytes : Nat → Nat → List Byte
  | 0, _ => []
  | n + 1, w => BitVec.ofNat 8 (w / 256 ^ n) :: bigEndianBytes n w

/-- The bytes of a table word of `nbits` bits, in the order they lie in program memory. The table's word is
`W` of 20_memory.md R45, one number with the opcode byte in its most significant byte; zero bytes follow, up to the
longest instruction (log 7). -/
def tableWordBytes (nbits w : Nat) : List Byte :=
  bigEndianBytes (nbits / 8) w ++ List.replicate (4 - nbits / 8) 0

/-- The instruction the decoder reads from a table word. -/
def decodeTableWord (nbits w : Nat) : Option Instr :=
  match decode (tableWordBytes nbits w) with
  | .ok (i, _) => some i
  | .error _ => none

end Sys2Proof
end

