-- ==== Sys2Proof/Machine/Fetch.lean ====
section
/-! DEFINITION. Fetch and decode: phase 2 of the step (spec/40_execution.md R91), and placing an instruction
where the next step fetches it. -/

namespace Sys2Proof.Machine

/-- What the fetch at an offset inside `len(P)` finds. -/
inductive Fetched where
  | instr (i : Instr)
  /-- the operand bytes lie past the end of the program -/
  | truncated
  /-- no cell of program memory lists a byte the instruction needs (never in a canonical one) -/
  | absent (offset : Nat)
  deriving DecidableEq, Repr

/-- The opcode byte, its length, the check `a + n > len(P)` before any operand byte is read, then the operand bytes
(R91). An illegal opcode has the nominal length 1, so it is never truncated (R130). -/
def fetch (P : Memory) (a : Nat) : Fetched :=
  match P.read a with
  | none => .absent a
  | some b0 =>
    if P.len < a + (decodeOpcode b0).length then .truncated
    else
      match decode (P.bytesAt a (decodeOpcode b0).length) with
      | .ok (i, _) => .instr i
      | .error _ => .absent a

/-- The offset the next step fetches at, for a program counter that is not negative. -/
def State.fetchOffset (s : State) : Nat := s.pc.toInt.toNat

/-- The program with the given bytes at an offset, what lies before and after kept. Zero bytes fill a gap between
the end of the program and the offset. -/
def Memory.placeBytes (P : Memory) (offset : Nat) (bytes : List Byte) : Memory :=
  Memory.ofBytes
    ((P.bytes ++ List.replicate (offset - P.len) 0).take offset ++ bytes ++ P.bytes.drop (offset + bytes.length))

/-- Place bytes where the next step fetches. A negative pc can fetch nothing and becomes 0; a FAULTED block can
fetch nothing and becomes IDLE; everything else is kept (log 7). -/
def State.placeNext (s : State) (bytes : List Byte) : State :=
  { s with
    prog := s.prog.placeBytes s.fetchOffset bytes
    pc := if s.pc.toInt < 0 then 0 else s.pc
    runState := if s.runState = .faulted then .idle else s.runState }

end Sys2Proof.Machine
end

