-- ==== Sys2Proof/Machine/Cycle.lean ====
section
/-! DEFINITION. One whole step: `Step(S, P)` of spec/40_execution.md R91, and what one round of RUN's loop adds to
it (R96). -/

namespace Sys2Proof.Machine

/-- Phases 2 to 5 at an offset inside the program. -/
def fetchExec (s : State) (a : Nat) : Out :=
  match fetch s.prog a with
  | .instr i => exec i s
  | .truncated => .next (s.raise .truncatedInstruction)
  | .absent offset => .fault (.absentByte offset)

/-- Phases 1 to 5: the end of the program first, then a negative pc, then the instruction (R91, R142). -/
def stepOnce (s : State) : Out :=
  if (s.prog.len : Int) ≤ s.pc.toInt then .next (s.report .notExecuted)
  else if s.pc.toInt < 0 then .next (s.raise .fetchAddress)
  else fetchExec s s.fetchOffset

/-- RUN's loop ends, IDLE, on EXECUTED(false) and on NOT_EXECUTED; a fault has already made the block FAULTED (R96). -/
def State.endRound (s : State) : State :=
  match s.result with
  | some (.executed false) => { s with runState := .idle }
  | some .notExecuted => { s with runState := .idle }
  | some (.executed true) => s
  | some (.fault _) => s
  | none => s

/-- One step. FAULTED: phase 0, the stored fault is reported again and nothing changes (R91, R145). IDLE: the one
`Step` of the STEP command (R97). RUNNING: one round of RUN's loop (R96). Log 3. -/
def cycle (s : State) : Out :=
  match s.runState with
  | .faulted => .next (s.report (.fault s.faultKind))
  | .idle => stepOnce s
  | .running => mapNext State.endRound (stepOnce s)

end Sys2Proof.Machine
end

