-- ==== Sys2Proof/Machine/Step.lean ====
section
/-! DEFINITION. The step function, and placing a table word where it fetches. Both only call the definitions of
Cycle.lean, Fetch.lean and Decode.lean. -/

namespace Sys2Proof.Machine

/-- One step of the machine (spec/40_execution.md R91, R96, R97). -/
def step (s : State) : Host.Outcome State Fault Refusal := cycle s

/-- `s` with the instruction of a table word stored where `step` fetches its next instruction. It stands for the
host's loading of a program (spec/70_reset_and_hazards.md R164; log 6, log 7). -/
def State.withFetchWord (s : State) (nbits w : Nat) : State := s.placeNext (tableWordBytes nbits w)

end Sys2Proof.Machine
end

