-- ==== Sys2Proof/Config.lean ====
section
/-! DEFINITION. What the implementation fixes: the one OPEN parameter of spec/00_scope.md R7. -/

namespace Sys2Proof.Config

/-- One less than `PROG_MAX`. The parameter is OPEN, `1 <= PROG_MAX <= 2^32` (R7, R41, decision D18): an opaque
constant, so that no proof can see its value (log 5). -/
opaque progMaxPred : Fin 4294967296

/-- `PROG_MAX`, the capacity of program memory in bytes (R7, R41). -/
def progMax : Nat := progMaxPred.val + 1

end Sys2Proof.Config
end

