-- ==== Sys2Proof/Machine/HostPort.lean ====
section
/-! DEFINITION. The host interface (spec/70_reset_and_hazards.md R160 to R165, spec/60_exceptions.md R152): the only
ways anything outside the block reads or changes it. A command its row does not accept is refused and has no effect.
The commands are functions beside the step function (log 14). -/

namespace Sys2Proof.Machine

/-- The host commands of R165. -/
inductive Command where
  | reset
  | clear
  | append (bytes : List Byte)
  | step
  | run
  | read
  deriving DecidableEq, Repr

/-- What READ returns (R152). -/
structure ReadValues where
  regs : Vector Word 32
  pc : PcVal
  equalFlag : Bool
  remainder : Word
  runState : BitVec 2
  faultKind : Byte
  faultPc : PcVal
  len : Nat
  bytes : List Byte
  deriving DecidableEq, Repr

/-- What a command returns (R165). -/
inductive Reply where
  /-- RESET and CLEAR return nothing -/
  | none
  /-- the command is not accepted, and had no effect -/
  | refused
  /-- APPEND: the bytes are in program memory -/
  | accepted
  /-- STEP: the result of the one step -/
  | stepped (r : StepResult)
  /-- RUN: it ended by `hlt` or at the end of the program -/
  | halted
  /-- RUN: it ended by a fault, or the block was FAULTED already -/
  | faulted (kind : Byte)
  /-- RUN, the MODEL'S OWN: the fuel is used up and the run is still in progress (R98) -/
  | stillRunning
  /-- STEP and RUN, the MODEL'S OWN: the model stopped by its fault `absentByte` -/
  | stopped (r : Fault)
  /-- READ -/
  | values (v : ReadValues)
  deriving DecidableEq, Repr

/-- RESET, accepted in every `run_state`; it ends a run (R160). -/
def hostReset (s : State) : State × Reply := (s.resetBlock, .none)

/-- CLEAR empties program memory and changes no block state (R162). -/
def hostClear (s : State) : State × Reply :=
  if s.runState = .running then (s, .refused) else ({ s with prog := [] }, .none)

/-- APPEND, refused whole when it would pass `PROG_MAX` (R41, R165). -/
def hostAppend (bytes : List Byte) (s : State) : State × Reply :=
  if s.runState = .running then (s, .refused)
  else if Config.progMax < s.prog.len + bytes.length then (s, .refused)
  else ({ s with prog := s.prog.append bytes }, .accepted)

/-- STEP: one `Step` and its result (R97); accepted when FAULTED (R165; log 10). -/
def hostStep (s : State) : State × Reply :=
  if s.runState = .running then (s, .refused)
  else
    match step s with
    | .next s' =>
      match s'.result with
      | some r => (s', .stepped r)
      | none => (s', .none)
    | .fault r => (s, .stopped r)
    | .refused _ => (s, .refused)

/-- RUN's loop (R96), for at most `fuel` rounds. A run need not end and the block keeps no budget: the fuel is the
model's own device (R98; log 14). -/
def runLoop : Nat → State → State × Reply
  | 0, s => (s, .stillRunning)
  | fuel + 1, s =>
    match step s with
    | .next s' =>
      match s'.result with
      | some (.executed true) => runLoop fuel s'
      | some (.executed false) => (s', .halted)
      | some .notExecuted => (s', .halted)
      | some (.fault k) => (s', .faulted k)
      | none => (s', .none)
    | .fault r => (s, .stopped r)
    | .refused _ => (s, .refused)

/-- RUN: from IDLE, run-to-completion; from FAULTED, the stored fault and no change (R96, R165; log 10). -/
def hostRun (fuel : Nat) (s : State) : State × Reply :=
  match s.runState with
  | .running => (s, .refused)
  | .faulted => (s, .faulted s.faultKind)
  | .idle => runLoop fuel { s with runState := .running }

/-- The values READ returns (R152). -/
def State.readValues (s : State) : ReadValues where
  regs := s.regs
  pc := s.pc
  equalFlag := s.equalFlag
  remainder := s.remainder
  runState := s.runState.code
  faultKind := s.faultKind
  faultPc := s.faultPc
  len := s.prog.len
  bytes := s.prog.bytes

/-- READ (R165). -/
def hostRead (s : State) : State × Reply :=
  if s.runState = .running then (s, .refused) else (s, .values s.readValues)

/-- One host command. `fuel` bounds RUN only. -/
def command (fuel : Nat) (c : Command) (s : State) : State × Reply :=
  match c with
  | .reset => hostReset s
  | .clear => hostClear s
  | .append bytes => hostAppend bytes s
  | .step => hostStep s
  | .run => hostRun fuel s
  | .read => hostRead s

/-- A session: commands one after the other, the state carried on (spec/10_state.md R36). -/
def session (fuel : Nat) : List Command → State → State
  | [], s => s
  | c :: cs, s => session fuel cs (command fuel c s).1

end Sys2Proof.Machine
end

