-- ==== Sys2Proof/Machine/Scanner.lean ====
section
/-! DEFINITION. The scanner of the textual assembly (spec/30_encoding.md R75 to R81): toolchain, not hardware (R5),
modelled beside the machine. A character is a `Char`; the classes are ASCII (decision D19; log 15). -/

namespace Sys2Proof.Machine

/-- The token kinds of R75; a number is 0 to 2^31 - 1, a register index 0 to 255. -/
inductive Token where
  | opcode (op : Opcode)
  | register (i : Byte)
  | number (v : Nat)
  deriving DecidableEq, Repr

/-- The toolchain errors of spec/60_exceptions.md R141. -/
inductive AsmError where
  | lexical
  | arity
  | encoding
  deriving DecidableEq, Repr

/-- Horizontal whitespace: space and tab (R76). -/
def isBlank (c : Char) : Bool := c == ' ' || c == '\t'

/-- Line breaks: LF and CR (R80). -/
def isBreak (c : Char) : Bool := c == '\n' || c == '\r'

/-- The name table of R79: the 15 mnemonics in lower case. -/
def nameTable : List (List Char × Opcode) :=
  [("load".toList, .load), ("add".toList, .add), ("sub".toList, .sub), ("mul".toList, .mul), ("div".toList, .div)] ++
  [("hlt".toList, .hlt), ("jmp".toList, .jmp), ("jmpf".toList, .jmpf), ("eq".toList, .eq), ("neq".toList, .neq)] ++
  [("gte".toList, .gte), ("lte".toList, .lte), ("lt".toList, .lt), ("gt".toList, .gt), ("jmpe".toList, .jmpe)]

def findName : List (List Char × Opcode) → List Char → Opcode
  | [], _ => .illegal
  | (name, op) :: rows, w => if w = name then op else findName rows w

/-- A name resolved case-insensitively; an unknown one is the illegal sentinel, not an error (R79). -/
def resolveName (w : List Char) : Opcode := findName nameTable (w.map Char.toLower)

/-- The value of a sequence of decimal digits, leading zeros allowed (R77). -/
def decimalValue (ds : List Char) : Nat := ds.foldl (fun n c => 10 * n + (c.toNat - 48)) 0

/-- What the scanner finds next. -/
inductive Scanned where
  | endOfInput
  /-- a line break: the end of the current instruction's tokens, and the text after it (R80) -/
  | endOfLine (rest : List Char)
  | token (t : Token) (rest : List Char)
  deriving DecidableEq, Repr

/-- A `$` or `#` with its digits: an error where there is no digit or the value is over `max` (R77, R78, R81). -/
def numericToken (max : Nat) (mk : Nat → Token) (cs : List Char) : Except AsmError Scanned :=
  let ds := cs.takeWhile Char.isDigit
  if ds = [] then .error .lexical
  else if max < decimalValue ds then .error .lexical
  else .ok (.token (mk (decimalValue ds)) (cs.dropWhile Char.isDigit))

/-- The next token, by the rules R76 to R81 in order, with no backtracking. -/
def scanNext (cs : List Char) : Except AsmError Scanned :=
  match cs.dropWhile isBlank with
  | [] => .ok .endOfInput
  | c :: rest =>
    if c = '$' then numericToken 255 (fun v => .register (BitVec.ofNat 8 v)) rest
    else if c = '#' then numericToken 2147483647 .number rest
    else if c.isAlpha then
      .ok (.token (.opcode (resolveName (c :: rest.takeWhile Char.isAlpha))) (rest.dropWhile Char.isAlpha))
    else if isBreak c then .ok (.endOfLine (rest.dropWhile (fun c => isBreak c || isBlank c)))
    else .error .lexical

/-- The tokens of a line, at most `fuel` of them. -/
def scanTokens : Nat → List Char → Except AsmError (List Token × List Char)
  | 0, cs => .ok ([], cs)
  | fuel + 1, cs =>
    match scanNext cs with
    | .error e => .error e
    | .ok .endOfInput => .ok ([], [])
    | .ok (.endOfLine rest) => .ok ([], rest)
    | .ok (.token t rest) =>
      match scanTokens fuel rest with
      | .error e => .error e
      | .ok (ts, rest') => .ok (t :: ts, rest')

/-- The whole token sequence of one line, and the text after the line break that ends it, if any (R75, R80). Every
token takes at least one character, so the fuel does not run out. -/
def scanLine (cs : List Char) : Except AsmError (List Token × List Char) := scanTokens (cs.length + 1) cs

end Sys2Proof.Machine
end

