-- ==== Sys2Proof/Machine/Assembler.lean ====
section
/-! DEFINITION. The assembler (spec/30_encoding.md R82 to R88): toolchain, not hardware (R5), modelled beside the
machine. It checks neither the operand count nor the operand kinds against the opcode (R86). -/

namespace Sys2Proof.Machine

/-- The bytes of one operand token; an opcode in an operand position is an encoding error (R83, R84). -/
def operandToken : Token → Except AsmError (List Byte)
  | .register i => .ok [i]
  | .number v => .ok (immBytes (BitVec.ofNat 16 v))
  | .opcode _ => .error .encoding

/-- The operands' bytes, left to right (R84). -/
def operandTokens : List Token → Except AsmError (List Byte)
  | [] => .ok []
  | t :: ts =>
    match operandToken t with
    | .error e => .error e
    | .ok bytes =>
      match operandTokens ts with
      | .error e => .error e
      | .ok more => .ok (bytes ++ more)

/-- One line's tokens: 1 to 4 of them, an opcode first (R82, R83, R84). -/
def assembleTokens (ts : List Token) : Except AsmError (List Byte) :=
  if ts.length = 0 ∨ 4 < ts.length then .error .arity
  else
    match ts with
    | .opcode op :: operands =>
      match operandTokens operands with
      | .error e => .error e
      | .ok bytes => .ok (op.code :: bytes)
    | _ => .error .encoding

/-- The bytes of one line of source text, and the text after the line break that ends it (R82). The whole line is
scanned first, so a lexical error comes before any other (log 12). -/
def assembleLine (line : List Char) : Except AsmError (List Byte × List Char) :=
  match scanLine line with
  | .error e => .error e
  | .ok (ts, rest) =>
    match assembleTokens ts with
    | .error e => .error e
    | .ok bytes => .ok (bytes, rest)

/-- The host's duty for one input line: assemble it and APPEND its bytes; where assembly fails no byte is appended
(R85; spec/70_reset_and_hazards.md R164, R165). DESIGN CHOICE: text after a line break is dropped; R75 takes one line
and the spec does not say what becomes of more (log 16). -/
def hostLine (line : List Char) (s : State) : Except AsmError (State × Reply) :=
  match assembleLine line with
  | .error e => .error e
  | .ok (bytes, _) => .ok (hostAppend bytes s)

/-! The well-formed assembly text of an instruction (R87). -/

/-- The tokens of the well-formed form of an instruction (R87). `illegal` has no mnemonic of its own. -/
def Token.ofInstr (i : Instr) : List Token :=
  match i with
  | .load dst imm16 => [.opcode .load, .register dst, .number imm16.toNat]
  | i => .opcode i.opcode :: i.operandBytes.map .register

def digitChar (d : Nat) : Char := Char.ofNat (48 + d)

/-- Decimal digits, most significant first; `fuel` is more than their number. -/
def decimalDigits : Nat → Nat → List Char
  | 0, _ => []
  | fuel + 1, n => if n < 10 then [digitChar n] else decimalDigits fuel (n / 10) ++ [digitChar (n % 10)]

/-- The decimal text of a number. -/
def decimalText (n : Nat) : List Char := decimalDigits (n + 1) n

def nameOf : List (List Char × Opcode) → Opcode → List Char
  | [], _ => "illegal".toList
  | (name, op') :: rows, op => if op = op' then name else nameOf rows op

/-- A token as text (R14). -/
def Token.text : Token → List Char
  | .opcode op => nameOf nameTable op
  | .register i => '$' :: decimalText i.toNat
  | .number v => '#' :: decimalText v

/-- Tokens as one line of text, each with a space after it. -/
def lineText : List Token → List Char
  | [] => []
  | t :: ts => t.text ++ ' ' :: lineText ts

/-- The assembly line of an instruction (R87). -/
def sourceLine (i : Instr) : List Char := lineText (Token.ofInstr i)

end Sys2Proof.Machine
end

