-- ==== Sys2Proof/Machine/Datapath.lean ====
section
/-! DEFINITION. The decoder's control outputs, one row per opcode (spec/30_encoding.md R67), and a datapath that
they drive: register-file port, ALU and program-counter unit. It is a second description of phases 3 to 5 of the
step, beside `exec`. -/

namespace Sys2Proof.Machine

/-- `alu_op` of R67. -/
inductive AluOp where
  | none | passImm | add | sub | mul | div | cmpEq | cmpNe | cmpGe | cmpLe | cmpLt | cmpGt
  deriving DecidableEq, Repr

/-- `pc_sel` of R67; `absIfFlag` is "ABS if equalFlag else SEQ". -/
inductive PcSel where
  | seq | abs | rel | absIfFlag
  deriving DecidableEq, Repr

/-- One row of R67. -/
structure Control where
  len : Nat
  readA : Bool
  readB : Bool
  writeX : Bool
  aluOp : AluOp
  flagWe : Bool
  remWe : Bool
  pcSel : PcSel
  /-- "and stop the run" -/
  stop : Bool
  deriving DecidableEq, Repr

def aluControl (op : AluOp) (rem : Bool) : Control := ⟨4, true, true, true, op, false, rem, .seq, false⟩

def compareControl (op : AluOp) : Control := ⟨4, true, true, false, op, true, false, .seq, false⟩

def jumpControl (sel : PcSel) : Control := ⟨2, true, false, false, .none, false, false, sel, false⟩

/-- The table of R67; `illegal` has no outputs: it raises DecodeFault. -/
def controlOf : Opcode → Option Control
  | .load => some ⟨4, false, false, true, .passImm, false, false, .seq, false⟩
  | .add => some (aluControl .add false)
  | .sub => some (aluControl .sub false)
  | .mul => some (aluControl .mul false)
  | .div => some (aluControl .div true)
  | .eq => some (compareControl .cmpEq)
  | .neq => some (compareControl .cmpNe)
  | .gte => some (compareControl .cmpGe)
  | .lte => some (compareControl .cmpLe)
  | .lt => some (compareControl .cmpLt)
  | .gt => some (compareControl .cmpGt)
  | .jmp => some (jumpControl .abs)
  | .jmpf => some (jumpControl .rel)
  | .jmpe => some (jumpControl .absIfFlag)
  | .hlt => some ⟨1, false, false, false, .none, false, false, .seq, true⟩
  | .illegal => none

/-- The operand fields by their place in the formats of R62: byte 1 (`src1`, `r`), byte 2 (`src2`), the `dst` field
(byte 3, or byte 1 for `load`), and the immediate. -/
structure Fields where
  a : Byte
  b : Byte
  dst : Byte
  imm : Half
  deriving DecidableEq, Repr

def fieldsOf : Instr → Fields
  | .load dst imm16 => ⟨dst, 0, dst, imm16⟩
  | .add s1 s2 d | .sub s1 s2 d | .mul s1 s2 d | .div s1 s2 d => ⟨s1, s2, d, 0⟩
  | .eq s1 s2 x | .neq s1 s2 x | .gte s1 s2 x | .lte s1 s2 x | .lt s1 s2 x | .gt s1 s2 x => ⟨s1, s2, x, 0⟩
  | .jmp r | .jmpf r | .jmpe r => ⟨r, 0, 0, 0⟩
  | .hlt | .illegal => ⟨0, 0, 0, 0⟩

/-- A read port, if the row enables it; a port that is not enabled checks nothing and gives 0. -/
def portRead (enable : Bool) (field : Byte) (s : State) (k : Word → Out) : Out :=
  if enable then withSrc field s k else k 0

/-- The write port's index, if the row enables it. -/
def portDst (enable : Bool) (field : Byte) (s : State) (k : Option (Fin 32) → Out) : Out :=
  if enable then withDst field s (fun i => k (some i)) else k none

/-- What the ALU gives: a value for `x[dst]`, a remainder and a flag. -/
structure AluOut where
  value : Word
  rem : Word
  flag : Bool
  deriving DecidableEq, Repr

def aluOut (op : AluOp) (A B imm : Word) : Except FaultKind AluOut :=
  match op with
  | .none => .ok ⟨0, 0, false⟩
  | .passImm => .ok ⟨imm, 0, false⟩
  | .add => .ok ⟨aluAdd A B, 0, false⟩
  | .sub => .ok ⟨aluSub A B, 0, false⟩
  | .mul => .ok ⟨aluMul A B, 0, false⟩
  | .div =>
    match divFault A B with
    | some k => .error k
    | none => .ok ⟨aluQuot A B, aluRem A B, false⟩
  | .cmpEq => .ok ⟨0, 0, relEq A B⟩
  | .cmpNe => .ok ⟨0, 0, relNeq A B⟩
  | .cmpGe => .ok ⟨0, 0, relGte A B⟩
  | .cmpLe => .ok ⟨0, 0, relLte A B⟩
  | .cmpLt => .ok ⟨0, 0, relLt A B⟩
  | .cmpGt => .ok ⟨0, 0, relGt A B⟩

/-- The next pc the row selects. -/
def selectPc (c : Control) (a : PcVal) (flag : Bool) (A : Word) : PcVal :=
  match c.pcSel with
  | .seq => seqPc a c.len
  | .abs => absPc A
  | .rel => relPc a A
  | .absIfFlag => if flag then absPc A else seqPc a c.len

/-- The commit the write enables select. -/
def commitRow (c : Control) (d : Option (Fin 32)) (A : Word) (out : AluOut) (s : State) : State :=
  let s1 := match d with
    | some i => s.setReg i out.value
    | none => s
  let s2 := if c.flagWe then s1.setEqualFlag out.flag else s1
  let s3 := if c.remWe then s2.setRemainder out.rem else s2
  s3.retire (selectPc c s.pc s.equalFlag A) (!c.stop)

/-- Phases 3 to 5 of the step as the control outputs drive them. -/
def datapath (i : Instr) (s : State) : Out :=
  match controlOf i.opcode with
  | none => .next (s.raise .decode)
  | some c =>
    portRead c.readA (fieldsOf i).a s fun A => portRead c.readB (fieldsOf i).b s fun B =>
      portDst c.writeX (fieldsOf i).dst s fun d =>
        match aluOut c.aluOp A B (sextImm (fieldsOf i).imm) with
        | .error k => .next (s.raise k)
        | .ok out => .next (commitRow c d A out s)

end Sys2Proof.Machine
end

