-- ==== Sys2Proof/Safety.lean ====
section
/-! DEFINITION. What holds of every state of a machine that was powered on and driven through the host interface. -/

namespace Sys2Proof.Machine

/-- The range of every value the block gives a pc (spec/10_state.md R27). -/
def pcInRange (p : PcVal) : Prop := -2147483648 ≤ p.toInt ∧ p.toInt ≤ (Config.progMax : Int) + 2147483648

/-- The invariant of the machine: program memory is a sequence of bytes that fits (spec/20_memory.md R40, R41), the
pc is in range (R27), and the status registers agree with each other (R32, R143). -/
structure State.Inv (s : State) : Prop where
  progWf : s.prog.wf = true
  progFits : s.prog.len ≤ Config.progMax
  pcRange : pcInRange s.pc
  /-- a FAULTED block holds a fault code of R140 and the address of the instruction it stopped at -/
  faulted : s.runState = .faulted → 1 ≤ s.faultKind.toNat ∧ s.faultKind.toNat ≤ 6 ∧ s.faultPc = s.pc
  /-- no fault since reset: the fault registers hold their reset values -/
  notFaulted : s.runState ≠ .faulted → s.faultKind = 0 ∧ s.faultPc = 0

/-- The next step fetches an instruction: no fault stands, and the pc is inside the program (R91, phases 0 to 2). -/
abbrev State.canFetch (s : State) : Prop :=
  s.runState ≠ .faulted ∧ 0 ≤ s.pc.toInt ∧ s.pc.toInt < (s.prog.len : Int)

/-- The next step executes `i`: it fetches, and the program bytes from the pc on decode to `i`. -/
def State.executes (s : State) (i : Instr) : Prop :=
  s.canFetch ∧ ∃ rest, decode (s.prog.bytes.drop s.fetchOffset) = .ok (i, rest)

/-- The six comparisons (spec/43_compare.md). -/
def isComparison : Instr → Bool
  | .eq _ _ _ | .neq _ _ _ | .gte _ _ _ | .lte _ _ _ | .lt _ _ _ | .gt _ _ _ => true
  | .load _ _ | .add _ _ _ | .sub _ _ _ | .mul _ _ _ | .div _ _ _ => false
  | .hlt | .jmp _ | .jmpf _ | .jmpe _ | .illegal => false

/-- The register field an instruction writes, if any (spec/10_state.md R24). -/
def destination : Instr → Option Byte
  | .load dst _ | .add _ _ dst | .sub _ _ dst | .mul _ _ dst | .div _ _ dst => some dst
  | .eq _ _ _ | .neq _ _ _ | .gte _ _ _ | .lte _ _ _ | .lt _ _ _ | .gt _ _ _ => none
  | .hlt | .jmp _ | .jmpf _ | .jmpe _ | .illegal => none

/-- The register fields an instruction reads (R24). -/
def sources : Instr → List Byte
  | .load _ _ | .hlt | .illegal => []
  | .add src1 src2 _ | .sub src1 src2 _ | .mul src1 src2 _ | .div src1 src2 _ => [src1, src2]
  | .eq src1 src2 _ | .neq src1 src2 _ | .gte src1 src2 _ => [src1, src2]
  | .lte src1 src2 _ | .lt src1 src2 _ | .gt src1 src2 _ => [src1, src2]
  | .jmp r | .jmpf r | .jmpe r => [r]

/-- `div`, the one instruction that writes the remainder cell (R24, R30). -/
def isDivision : Instr → Bool
  | .div _ _ _ => true
  | .load _ _ | .add _ _ _ | .sub _ _ _ | .mul _ _ _ => false
  | .eq _ _ _ | .neq _ _ _ | .gte _ _ _ | .lte _ _ _ | .lt _ _ _ | .gt _ _ _ => false
  | .hlt | .jmp _ | .jmpf _ | .jmpe _ | .illegal => false

/-- The state a fault of the given code leaves (spec/40_execution.md R94, spec/60_exceptions.md R143), written out:
the status registers and the result; every general register, `remainder`, `equalFlag`, `pc` and the program as before. -/
def afterFault (s : State) (code : Byte) : State :=
  { s with runState := .faulted, faultKind := code, faultPc := s.pc, result := some (.fault code) }

/-- The state of a RUN's round, given what its `Step` left (R96): the run ends on EXECUTED(false). -/
def afterRound (t : State) : State :=
  if t.result = some (.executed false) then { t with runState := .idle } else t

/-- The states power-on, host commands and the rounds of a run lead to. -/
inductive Reachable : State → Prop where
  | powerOn : Reachable State.reset
  | command (fuel : Nat) (c : Command) (s : State) : Reachable s → Reachable (command fuel c s).1
  | round (s t : State) : Reachable s → step s = .next t → Reachable t

end Sys2Proof.Machine
end

