-- ==== Sys2Proof/Certificates/Slice0/Obligations.lean ====
section
/-! DEFINITION. The statements for the provers, in the order of OBLIGATIONS.json. Nothing here rests on a value the
model chose, except that a state's `result` field is the model's own (log 2). Where a cited rule carries a decision
D<n> of spec/92_eei_decisions.md, the docstring names it (log 13). -/

open Sys2Proof Sys2Proof.Machine

/-! Reset. -/

/-- R34: the value of every piece of block state after reset (flag and remainder by decision D7, status registers by
D15). -/
def Obligations.ResetStateIsAllZero : Prop :=
  (∀ i : Fin 32, State.reset.x i = 0) ∧ State.reset.pc = 0 ∧ State.reset.equalFlag = false ∧
  State.reset.remainder = 0 ∧ State.reset.runState = .idle ∧ State.reset.faultKind = 0 ∧ State.reset.faultPc = 0

/-- R160, R161: RESET, in every state, gives every piece of block state its reset value and keeps program memory; at
power-on program memory is empty (decision D17). -/
def Obligations.ResetCommandRestoresBlockAndKeepsProgram : Prop :=
  State.reset.prog = [] ∧
  ∀ (fuel : Nat) (s : State), ∃ t, command fuel .reset s = (t, .none) ∧
    (∀ i : Fin 32, t.x i = 0) ∧ t.pc = 0 ∧ t.equalFlag = false ∧ t.remainder = 0 ∧
    t.runState = .idle ∧ t.faultKind = 0 ∧ t.faultPc = 0 ∧ t.prog = s.prog

/-- The invariant holds at power-on. -/
def Obligations.PowerOnStateSatisfiesInvariant : Prop := State.reset.Inv

/-! Encoding. -/

/-- R71 on bytes: every instruction, with every operand value, decodes from its encoding, whatever follows. -/
def Obligations.DecodeOfEncodeIsIdentity : Prop :=
  ∀ (i : Instr) (rest : List Byte), decode (encode i ++ rest) = .ok (i, rest)

/-- The other direction: the bytes a decoded instruction was read from are its encoding; only an illegal opcode
byte has no encoding of its own. -/
def Obligations.DecodedBytesAreTheEncoding : Prop :=
  ∀ (bytes : List Byte) (i : Instr) (rest : List Byte), decode bytes = .ok (i, rest) → i ≠ .illegal →
    bytes = encode i ++ rest

/-- R66: the byte of each opcode, and illegal for every other byte (decision D27). -/
def Obligations.OpcodeByteMapIsTotal : Prop :=
  [0x00, 0x01, 0x02, 0x03, 0x04, 0x05, 0x06, 0x07, 0x08, 0x09, 0x0A, 0x0B, 0x0C, 0x0D, 0x0E].map decodeOpcode =
    [.load, .add, .sub, .mul, .div, .hlt, .jmp, .jmpf, .eq, .neq, .gte, .lte, .lt, .gt, .jmpe] ∧
  ∀ b : Byte, 0x0F ≤ b.toNat → decodeOpcode b = .illegal

/-- R87: some byte sequences written out from the spec's table of encodings. -/
def Obligations.WrittenOutWordsDecode : Prop :=
  decode [0x00, 0x00, 0x01, 0xF4] = .ok (.load 0 500, []) ∧
  decode [0x04, 0x01, 0x02, 0x03] = .ok (.div 1 2 3, []) ∧
  decode [0x0A, 0x07, 0x08, 0x09] = .ok (.gte 7 8 9, []) ∧
  decode [0x0E, 0x04] = .ok (.jmpe 4, []) ∧
  decode [0x05, 0x01, 0x02] = .ok (.hlt, [0x01, 0x02]) ∧
  decode [0x01, 0x01, 0x02] = .error (.truncated .add)

/-- R62: the field positions in the instruction word, for every field value: the 4-byte formats have the opcode in
bits 31:24 and operand bytes in 23:16, 15:8 and 7:0, format FR has it in 15:8 and the register in 7:0. -/
def Obligations.TableWordFieldsAreReadInPlace : Prop :=
  (∀ (dst : Byte) (imm16 : Half),
    decodeTableWord 32 (0x00 * 2 ^ 24 + dst.toNat * 2 ^ 16 + imm16.toNat) = some (.load dst imm16)) ∧
  (∀ a b c : Byte,
    decodeTableWord 32 (0x01 * 2 ^ 24 + a.toNat * 2 ^ 16 + b.toNat * 2 ^ 8 + c.toNat) = some (.add a b c) ∧
    decodeTableWord 32 (0x04 * 2 ^ 24 + a.toNat * 2 ^ 16 + b.toNat * 2 ^ 8 + c.toNat) = some (.div a b c) ∧
    decodeTableWord 32 (0x0D * 2 ^ 24 + a.toNat * 2 ^ 16 + b.toNat * 2 ^ 8 + c.toNat) = some (.gt a b c)) ∧
  (∀ r : Byte,
    decodeTableWord 16 (0x06 * 2 ^ 8 + r.toNat) = some (.jmp r) ∧
    decodeTableWord 16 (0x07 * 2 ^ 8 + r.toNat) = some (.jmpf r) ∧
    decodeTableWord 16 (0x0E * 2 ^ 8 + r.toNat) = some (.jmpe r)) ∧
  decodeTableWord 8 0x05 = some .hlt ∧ decodeTableWord 8 0x0F = some .illegal

/-! What each instruction does. `{ s with … }` is the whole next state, so each of these is a frame as well. -/

/-- R100: the sign-extended immediate in `x[dst]`, or AddressingFault. -/
def Obligations.LoadWritesSignExtendedImmediate : Prop :=
  ∀ (dst : Byte) (imm16 : Half) (s : State),
    (∀ h : dst.toNat < 32, exec (.load dst imm16) s =
      .next { s with regs := s.regs.set dst.toNat (BitVec.ofInt 32 imm16.toInt), pc := s.pc + 4,
                     result := some (.executed true) }) ∧
    (32 ≤ dst.toNat → exec (.load dst imm16) s = .next (afterFault s 2))

/-- R106 to R108: the exact sum, difference or product of the signed sources, modulo 2^32, in `x[dst]`;
AddressingFault where one of the three fields is 32 or more. That `sub` and `mul` wrap is decision D10. -/
def Obligations.AddSubMulWriteWrappedResult : Prop :=
  ∀ (src1 src2 dst : Byte) (s : State),
    (∀ (h1 : src1.toNat < 32) (h2 : src2.toNat < 32) (h3 : dst.toNat < 32),
      exec (.add src1 src2 dst) s =
        .next { s with regs := s.regs.set dst.toNat
                         (BitVec.ofInt 32 (s.regs[src1.toNat].toInt + s.regs[src2.toNat].toInt)),
                       pc := s.pc + 4, result := some (.executed true) } ∧
      exec (.sub src1 src2 dst) s =
        .next { s with regs := s.regs.set dst.toNat
                         (BitVec.ofInt 32 (s.regs[src1.toNat].toInt - s.regs[src2.toNat].toInt)),
                       pc := s.pc + 4, result := some (.executed true) } ∧
      exec (.mul src1 src2 dst) s =
        .next { s with regs := s.regs.set dst.toNat
                         (BitVec.ofInt 32 (s.regs[src1.toNat].toInt * s.regs[src2.toNat].toInt)),
                       pc := s.pc + 4, result := some (.executed true) }) ∧
    (32 ≤ src1.toNat ∨ 32 ≤ src2.toNat ∨ 32 ≤ dst.toNat →
      exec (.add src1 src2 dst) s = .next (afterFault s 2) ∧
      exec (.sub src1 src2 dst) s = .next (afterFault s 2) ∧
      exec (.mul src1 src2 dst) s = .next (afterFault s 2))

/-- R109: quotient toward zero in `x[dst]`, the signed remainder's bit pattern in `remainder`; a zero divisor and
-2^31 / -1 take their faults; AddressingFault, before either, where a field is 32 or more. Rounding is
decision D8, the overflow fault D9. -/
def Obligations.DivWritesQuotientAndRemainder : Prop :=
  ∀ (src1 src2 dst : Byte) (s : State),
    (∀ (h1 : src1.toNat < 32) (h2 : src2.toNat < 32) (h3 : dst.toNat < 32),
      (s.regs[src2.toNat].toInt ≠ 0 → ¬ (s.regs[src1.toNat].toInt = -2147483648 ∧ s.regs[src2.toNat].toInt = -1) →
        exec (.div src1 src2 dst) s =
          .next { s with regs := s.regs.set dst.toNat
                           (BitVec.ofInt 32 (s.regs[src1.toNat].toInt.tdiv s.regs[src2.toNat].toInt)),
                         remainder := BitVec.ofInt 32 (s.regs[src1.toNat].toInt.tmod s.regs[src2.toNat].toInt),
                         pc := s.pc + 4, result := some (.executed true) }) ∧
      (s.regs[src2.toNat].toInt = 0 → exec (.div src1 src2 dst) s = .next (afterFault s 3)) ∧
      (s.regs[src1.toNat].toInt = -2147483648 → s.regs[src2.toNat].toInt = -1 →
        exec (.div src1 src2 dst) s = .next (afterFault s 4))) ∧
    (32 ≤ src1.toNat ∨ 32 ≤ src2.toNat ∨ 32 ≤ dst.toNat → exec (.div src1 src2 dst) s = .next (afterFault s 2))

/-- R110, its identity: whenever `div` does not fault, A = q * B + r exactly, |r| < |B|, and r is 0 or has A's sign. -/
def Obligations.DivisionIdentityHolds : Prop :=
  ∀ (src1 src2 dst : Byte) (s t : State) (h1 : src1.toNat < 32) (h2 : src2.toNat < 32) (h3 : dst.toNat < 32),
    exec (.div src1 src2 dst) s = .next t → t.result = some (.executed true) →
    let A := s.regs[src1.toNat].toInt
    let B := s.regs[src2.toNat].toInt
    let q := t.regs[dst.toNat].toInt
    let r := t.remainder.toInt
    A = q * B + r ∧ r.natAbs < B.natAbs ∧ (r = 0 ∨ r.sign = A.sign)

/-- R108's last corner case and R9's `wrap32`: the wrapped results are the 32-bit machine operations, the same
whether the operands are read as signed or as unsigned. -/
def Obligations.WrappedArithmeticIsSignAgnostic : Prop :=
  ∀ (src1 src2 dst : Byte) (s t : State) (h1 : src1.toNat < 32) (h2 : src2.toNat < 32) (h3 : dst.toNat < 32),
    (exec (.add src1 src2 dst) s = .next t →
      t.regs[dst.toNat].toNat = (s.regs[src1.toNat].toNat + s.regs[src2.toNat].toNat) % 2 ^ 32) ∧
    (exec (.sub src1 src2 dst) s = .next t →
      t.regs[dst.toNat].toNat = (s.regs[src1.toNat].toNat + (2 ^ 32 - s.regs[src2.toNat].toNat)) % 2 ^ 32) ∧
    (exec (.mul src1 src2 dst) s = .next t →
      t.regs[dst.toNat].toNat = (s.regs[src1.toNat].toNat * s.regs[src2.toNat].toNat) % 2 ^ 32)

/-- R101: what a `load` leaves in its register is a value from -32768 to 32767. -/
def Obligations.LoadedConstantsAreSixteenBit : Prop :=
  ∀ (dst : Byte) (imm16 : Half) (s t : State) (h : dst.toNat < 32), exec (.load dst imm16) s = .next t →
    -32768 ≤ t.regs[dst.toNat].toInt ∧ t.regs[dst.toNat].toInt ≤ 32767

/-- R115 to R121: the signed relation of the two sources in `equalFlag`, and no general register written;
AddressingFault where one of the two source fields is 32 or more. -/
def Obligations.ComparisonsWriteSignedRelation : Prop :=
  ∀ (src1 src2 rsv : Byte) (s : State),
    (∀ (h1 : src1.toNat < 32) (h2 : src2.toNat < 32),
      let A := s.regs[src1.toNat].toInt
      let B := s.regs[src2.toNat].toInt
      let after : Bool → Out := fun f =>
        .next { s with equalFlag := f, pc := s.pc + 4, result := some (.executed true) }
      exec (.eq src1 src2 rsv) s = after (decide (A = B)) ∧
      exec (.neq src1 src2 rsv) s = after (decide (A ≠ B)) ∧
      exec (.gte src1 src2 rsv) s = after (decide (A ≥ B)) ∧
      exec (.lte src1 src2 rsv) s = after (decide (A ≤ B)) ∧
      exec (.lt src1 src2 rsv) s = after (decide (A < B)) ∧
      exec (.gt src1 src2 rsv) s = after (decide (A > B))) ∧
    (32 ≤ src1.toNat ∨ 32 ≤ src2.toNat →
      exec (.eq src1 src2 rsv) s = .next (afterFault s 2) ∧
      exec (.neq src1 src2 rsv) s = .next (afterFault s 2) ∧
      exec (.gte src1 src2 rsv) s = .next (afterFault s 2) ∧
      exec (.lte src1 src2 rsv) s = .next (afterFault s 2) ∧
      exec (.lt src1 src2 rsv) s = .next (afterFault s 2) ∧
      exec (.gt src1 src2 rsv) s = .next (afterFault s 2))

/-- R68: the reserved byte of a comparison has no effect, whatever its value (decision D14). -/
def Obligations.ReservedByteIsIgnored : Prop :=
  ∀ (src1 src2 rsv rsv' : Byte) (s : State),
    exec (.eq src1 src2 rsv) s = exec (.eq src1 src2 rsv') s ∧
    exec (.neq src1 src2 rsv) s = exec (.neq src1 src2 rsv') s ∧
    exec (.gte src1 src2 rsv) s = exec (.gte src1 src2 rsv') s ∧
    exec (.lte src1 src2 rsv) s = exec (.lte src1 src2 rsv') s ∧
    exec (.lt src1 src2 rsv) s = exec (.lt src1 src2 rsv') s ∧
    exec (.gt src1 src2 rsv) s = exec (.gt src1 src2 rsv') s

/-- R126: `jmp` sets the pc to the sign-extended register, or takes AddressingFault. That a negative target is not
checked here is decision D5. -/
def Obligations.JmpSetsAbsoluteTarget : Prop :=
  ∀ (r : Byte) (s : State),
    (∀ h : r.toNat < 32, exec (.jmp r) s =
      .next { s with pc := BitVec.ofInt 64 s.regs[r.toNat].toInt, result := some (.executed true) }) ∧
    (32 ≤ r.toNat → exec (.jmp r) s = .next (afterFault s 2))

/-- R127: `jmpf` jumps relative to the address after the `jmpf` (decision D28), or takes AddressingFault. -/
def Obligations.JmpfSetsRelativeTarget : Prop :=
  ∀ (r : Byte) (s : State),
    (∀ h : r.toNat < 32, exec (.jmpf r) s =
      .next { s with pc := (s.pc + 2) + BitVec.ofInt 64 s.regs[r.toNat].toInt, result := some (.executed true) }) ∧
    (32 ≤ r.toNat → exec (.jmpf r) s = .next (afterFault s 2))

/-- R128: `jmpe` jumps if `equalFlag` is true and falls through otherwise; the flag is kept; a register field of 32
or more faults whether or not the jump would be taken (decision D13). -/
def Obligations.JmpeJumpsWhenFlagIsTrue : Prop :=
  ∀ (r : Byte) (s : State),
    (∀ h : r.toNat < 32, s.equalFlag = true → exec (.jmpe r) s =
      .next { s with pc := BitVec.ofInt 64 s.regs[r.toNat].toInt, result := some (.executed true) }) ∧
    (r.toNat < 32 → s.equalFlag = false → exec (.jmpe r) s =
      .next { s with pc := s.pc + 2, result := some (.executed true) }) ∧
    (32 ≤ r.toNat → exec (.jmpe r) s = .next (afterFault s 2))

/-- R129: `hlt` advances the pc by exactly 1 with the continue signal false. -/
def Obligations.HltAdvancesByOneAndStops : Prop :=
  ∀ s : State, exec .hlt s = .next { s with pc := s.pc + 1, result := some (.executed false) }

/-- R130: `illegal` takes DecodeFault; nothing but the status changes. -/
def Obligations.IllegalTakesDecodeFault : Prop := ∀ s : State, exec .illegal s = .next (afterFault s 1)

/-- R22, R92, R142: an instruction with a register field of 32 to 255 that it accesses takes AddressingFault, before
any arithmetic fault, in every state; one without never does. The order is decision D12, that an untaken `jmpe` checks
its register is R128 and decision D13, and which fields are accessed is `Instr.wellFormed`, the model's reading of R69
(log 9). -/
def Obligations.BadRegisterFieldTakesAddressingFault : Prop :=
  ∀ (i : Instr) (s : State), i ≠ .illegal →
    (i.wellFormed = false → exec i s = .next (afterFault s 2)) ∧
    (i.wellFormed = true → exec i s ≠ .next (afterFault s 2))

/-! Frames. -/

/-- The frame of load, add, sub, mul and div: nothing but the destination register, the pc, for `div` the remainder
cell, and on a fault the status registers (R24, R94). -/
def Obligations.RegisterWritersFrame : Prop :=
  ∀ (i : Instr) (s t : State), (destination i).isSome = true → exec i s = .next t →
    (∀ j : Fin 32, destination i ≠ some (BitVec.ofNat 8 j.val) → t.x j = s.x j) ∧
    t.equalFlag = s.equalFlag ∧ (isDivision i = false → t.remainder = s.remainder) ∧
    (∀ a, t.prog.read a = s.prog.read a) ∧ t.prog.len = s.prog.len ∧
    ((t.runState = s.runState ∧ t.faultKind = s.faultKind ∧ t.faultPc = s.faultPc) ∨ t = afterFault s t.faultKind)

/-- The frame of the six comparisons: nothing but `equalFlag` and the pc, and on a fault the status registers. -/
def Obligations.ComparisonsFrame : Prop :=
  ∀ (i : Instr) (s t : State), isComparison i = true → exec i s = .next t →
    (∀ j : Fin 32, t.x j = s.x j) ∧ t.remainder = s.remainder ∧
    (∀ a, t.prog.read a = s.prog.read a) ∧ t.prog.len = s.prog.len ∧
    ((t.runState = s.runState ∧ t.faultKind = s.faultKind ∧ t.faultPc = s.faultPc) ∨ t = afterFault s t.faultKind)

/-- The frame of jmp, jmpf, jmpe and hlt: nothing but the pc, and on a fault the status registers. -/
def Obligations.JumpsAndHltFrame : Prop :=
  ∀ (i : Instr) (s t : State), (i = .hlt ∨ ∃ r, i = .jmp r ∨ i = .jmpf r ∨ i = .jmpe r) → exec i s = .next t →
    (∀ j : Fin 32, t.x j = s.x j) ∧ t.remainder = s.remainder ∧ t.equalFlag = s.equalFlag ∧
    (∀ a, t.prog.read a = s.prog.read a) ∧ t.prog.len = s.prog.len ∧
    ((t.runState = s.runState ∧ t.faultKind = s.faultKind ∧ t.faultPc = s.faultPc) ∨ t = afterFault s t.faultKind)

/-- R24, the column "reads": a register the instruction does not read has no influence on anything the instruction
leaves, but for that register itself. -/
def Obligations.UnreadRegistersDoNotMatter : Prop :=
  ∀ (i : Instr) (s t : State) (j : Fin 32) (v : Word), BitVec.ofNat 8 j.val ∉ sources i → exec i s = .next t →
    ∃ t', exec i { s with regs := s.regs.set j.val v } = .next t' ∧ (∀ k : Fin 32, k ≠ j → t'.x k = t.x k) ∧
      t'.pc = t.pc ∧ t'.equalFlag = t.equalFlag ∧ t'.remainder = t.remainder ∧ t'.runState = t.runState ∧
      t'.faultKind = t.faultKind ∧ t'.faultPc = t.faultPc ∧ t'.prog = t.prog ∧ t'.result = t.result

/-! The step. -/

/-- R91, R97: a step inside the program is `exec` of the instruction the bytes at the pc decode to. The RUNNING clause
is the model's choice (log 3, DEDUCED): R96 makes `run_state` IDLE after the `Step` that returned EXECUTED(false), and
the model makes the two one step. -/
def Obligations.StepRunsTheDecodedInstruction : Prop :=
  ∀ (s t : State) (i : Instr) (rest : List Byte), s.prog.wf = true → 0 ≤ s.pc.toInt →
    s.pc.toInt < (s.prog.len : Int) → decode (s.prog.bytes.drop s.pc.toInt.toNat) = .ok (i, rest) →
    exec i s = .next t →
    (s.runState = .idle → step s = .next t) ∧ (s.runState = .running → step s = .next (afterRound t))

/-- R91, R55: at or past the end of the program nothing executes and no state changes. That a RUNNING block is IDLE
after this very step is the model's choice (log 3, DEDUCED): R96 moves `run_state` after the `Step`. The `result` field
is the model's own (log 2). -/
def Obligations.EndOfProgramIsNotExecuted : Prop :=
  ∀ s : State, s.runState ≠ .faulted → (s.prog.len : Int) ≤ s.pc.toInt →
    step s = .next { s with runState := .idle, result := some .notExecuted }

/-- R48, R55: a step that begins with a negative pc takes FetchAddressFault. -/
def Obligations.NegativePcTakesFetchAddressFault : Prop :=
  ∀ s : State, s.runState ≠ .faulted → s.pc.toInt < 0 → step s = .next (afterFault s 5)

/-- R130, R142: an opcode byte 0x0F to 0xFF takes DecodeFault, however few bytes follow it. -/
def Obligations.IllegalByteTakesDecodeFault : Prop :=
  ∀ (s : State) (b : Byte), s.prog.wf = true → s.runState ≠ .faulted → 0 ≤ s.pc.toInt →
    s.prog.read s.pc.toInt.toNat = some b → 0x0F ≤ b.toNat → step s = .next (afterFault s 1)

/-- R55, R91: an instruction whose operand bytes lie past the end takes TruncatedInstructionFault. -/
def Obligations.MissingOperandsTakeTruncatedFault : Prop :=
  ∀ (s : State) (b : Byte), s.prog.wf = true → s.runState ≠ .faulted → 0 ≤ s.pc.toInt →
    s.prog.read s.pc.toInt.toNat = some b → b.toNat < 0x0F →
    s.prog.len < s.pc.toInt.toNat + (decodeOpcode b).length → step s = .next (afterFault s 6)

/-- R11: a step executes an instruction, reports that nothing was executed, or takes a fault; the model itself never
stops on a canonical program memory. -/
def Obligations.StepAlwaysAnswers : Prop :=
  ∀ s : State, s.prog.wf = true → ∃ t r, step s = .next t ∧ t.result = some r

/-- R94, R143: faults are precise (decision D11). A step that makes the block FAULTED writes the status registers
and changes nothing else, and its code is one of R140's. -/
def Obligations.FaultsArePrecise : Prop :=
  ∀ s t : State, s.prog.wf = true → s.runState ≠ .faulted → step s = .next t → t.runState = .faulted →
    t = afterFault s t.faultKind ∧ 1 ≤ t.faultKind.toNat ∧ t.faultKind.toNat ≤ 6

/-- R42: no step changes program memory. -/
def Obligations.StepNeverWritesProgram : Prop :=
  ∀ s t : State, step s = .next t → t.prog = s.prog

/-- R29: a step that changes `equalFlag` executed one of the six comparisons. -/
def Obligations.OnlyComparisonsChangeTheFlag : Prop :=
  ∀ s t : State, s.prog.wf = true → step s = .next t → t.equalFlag ≠ s.equalFlag →
    ∃ i, s.executes i ∧ isComparison i = true

/-- R30: a step that changes `remainder` executed a `div`. -/
def Obligations.OnlyDivChangesTheRemainder : Prop :=
  ∀ s t : State, s.prog.wf = true → step s = .next t → t.remainder ≠ s.remainder →
    ∃ src1 src2 dst, s.executes (.div src1 src2 dst)

/-- R95: every instruction except `hlt` returns EXECUTED(true), and `hlt` returns EXECUTED(false). -/
def Obligations.OnlyHltClearsTheContinueSignal : Prop :=
  ∀ (s t : State) (cont : Bool), s.prog.wf = true → step s = .next t → t.result = some (.executed cont) →
    s.runState ≠ .faulted ∧ ∃ i, s.executes i ∧ (cont = false ↔ i = .hlt)

/-- R27, R125: in a program of at most 2^32 bytes the pc sums are exact: no step wraps. -/
def Obligations.PcArithmeticNeverWraps : Prop :=
  ∀ (s t : State) (i : Instr), s.prog.wf = true → s.prog.len ≤ 2 ^ 32 → s.executes i → step s = .next t →
    t.runState ≠ .faulted →
    (∀ r (h : r.toNat < 32), i = .jmp r → t.pc.toInt = s.regs[r.toNat].toInt) ∧
    (∀ r (h : r.toNat < 32), i = .jmpf r → t.pc.toInt = (s.pc.toInt + 2) + s.regs[r.toNat].toInt) ∧
    (∀ r (h : r.toNat < 32), i = .jmpe r →
      t.pc.toInt = if s.equalFlag then s.regs[r.toNat].toInt else s.pc.toInt + 2) ∧
    ((∀ r, i ≠ .jmp r ∧ i ≠ .jmpf r ∧ i ≠ .jmpe r) → t.pc.toInt = s.pc.toInt + (i.opcode.length : Int))

/-- The invariant is kept by every step, from every state that meets it. -/
def Obligations.StepKeepsInvariant : Prop := ∀ s t : State, s.Inv → step s = .next t → t.Inv

/-! The host interface. -/

/-- The invariant is kept by every host command, RUN with any fuel (log 14) among them. -/
def Obligations.HostCommandsKeepInvariant : Prop :=
  ∀ (fuel : Nat) (c : Command) (s : State), s.Inv → (command fuel c s).1.Inv

/-- Every state that power-on, host commands and rounds of a run lead to meets the invariant, and its step answers. It
follows from the invariant at power-on, its two step lemmas and StepAlwaysAnswers; APPEND of any bytes is among the
commands. -/
def Obligations.ReachableStatesAreSafe : Prop :=
  ∀ s : State, Reachable s → s.Inv ∧ ∃ t, step s = .next t

/-- R145: while the block is FAULTED, no sequence of commands without RESET changes any state of the block. The
`result` field is the model's own (log 2), the fuel its own device (log 14). -/
def Obligations.FaultStaysUntilReset : Prop :=
  ∀ (fuel : Nat) (cs : List Command) (s : State), s.runState = .faulted → Command.reset ∉ cs →
    session fuel cs s = { s with prog := (session fuel cs s).prog, result := (session fuel cs s).result }

/-- R91 phase 0, R145, R165 (decision D25): STEP and RUN on a FAULTED block return the stored fault and change
nothing. That they are accepted at all is the model's choice between rules (log 10, DEDUCED): R96 and R97 say "accepted
only when `run_state = IDLE`". STEP rewrites the model's own `result` field and RUN leaves it (log 2). -/
def Obligations.FaultedBlockReportsItsFault : Prop :=
  ∀ (fuel : Nat) (s : State), s.runState = .faulted →
    hostStep s = ({ s with result := some (.fault s.faultKind) }, .stepped (.fault s.faultKind)) ∧
    hostRun fuel s = (s, .faulted s.faultKind)

/-- R97: a STEP on an IDLE block leaves it IDLE unless the step faults, and returns the step's result. -/
def Obligations.SingleStepStaysIdleUnlessFault : Prop :=
  ∀ s : State, s.prog.wf = true → s.runState = .idle →
    ∃ t r, step s = .next t ∧ hostStep s = (t, .stepped r) ∧ t.result = some r ∧
      (t.runState = .idle ∨ ∃ k, r = .fault k ∧ t = afterFault s k)

/-- R96: what RUN returns agrees with the state it leaves. The third case, `stillRunning` when the fuel is used up, is
the model's own and no return of R165 (log 14, DESIGN CHOICE); R98: "a model runs under fuel as its own device, not as
a block rule". -/
def Obligations.RunReplyAgreesWithRunState : Prop :=
  ∀ (fuel : Nat) (s : State), s.prog.wf = true → s.runState = .idle →
    let (t, reply) := hostRun fuel s
    (reply = .halted ∧ t.runState = .idle ∧ (t.result = some (.executed false) ∨ t.result = some .notExecuted)) ∨
    (reply = .faulted t.faultKind ∧ t.runState = .faulted) ∨
    (reply = .stillRunning ∧ t.runState = .running)

/-- R96, R97: run-to-completion is repeated single steps. A RUN that ends leaves the very state that some number of
STEPs leaves. The fuel and the reply `stillRunning` of the premise are the model's own (log 14, DESIGN CHOICE), and so
is the `result` field that the compared states hold (log 2). -/
def Obligations.RunIsRepeatedSingleSteps : Prop :=
  ∀ (fuel : Nat) (s : State), s.prog.wf = true → s.runState = .idle → (hostRun fuel s).2 ≠ .stillRunning →
    ∃ n, 1 ≤ n ∧ n ≤ fuel ∧ Nat.iterate (fun u => (hostStep u).1) n s = (hostRun fuel s).1

/-- R98, R127: a `jmpf` by -2 onto itself never ends a run, whatever the budget; the budget and the reply
`stillRunning` are the model's own (log 14). -/
def Obligations.JmpfOntoItselfNeverEnds : Prop :=
  ∀ (fuel : Nat) (s : State) (r : Byte) (h : r.toNat < 32), s.prog.wf = true → s.runState = .idle →
    s.executes (.jmpf r) → s.regs[r.toNat].toInt = -2 →
    (hostRun fuel s).2 = .stillRunning ∧ (hostRun fuel s).1.pc = s.pc

/-- R164: a RUN on an empty program returns at once and changes nothing (its own two moves of `run_state` cancel)
but the model's own `result` field (log 2). -/
def Obligations.RunOnEmptyProgramHaltsAtOnce : Prop :=
  ∀ (fuel : Nat) (s : State), s.runState = .idle → s.prog = [] → 0 ≤ s.pc.toInt →
    hostRun (fuel + 1) s = ({ s with result := some .notExecuted }, .halted)

/-- R41, R165: APPEND adds the bytes at `len(P)` onward, in order, and changes nothing else; one that would pass
PROG_MAX is refused whole. -/
def Obligations.AppendAddsBytesAtTheEnd : Prop :=
  ∀ (s : State) (bytes : List Byte), s.prog.wf = true → s.runState ≠ .running →
    (s.prog.len + bytes.length ≤ Config.progMax → ∃ P, hostAppend bytes s = ({ s with prog := P }, .accepted) ∧
      P.len = s.prog.len + bytes.length ∧ (∀ a, a < s.prog.len → P.read a = s.prog.read a) ∧
      ∀ k, k < bytes.length → P.read (s.prog.len + k) = bytes[k]?) ∧
    (Config.progMax < s.prog.len + bytes.length → hostAppend bytes s = (s, .refused))

/-- R53, R99: a block stopped at the end of its program executes, at its next step, the first instruction appended. -/
def Obligations.AppendedInstructionRunsNext : Prop :=
  ∀ (s t : State) (i : Instr), s.prog.wf = true → s.runState = .idle → s.pc.toInt = (s.prog.len : Int) →
    s.prog.len + (encode i).length ≤ Config.progMax →
    exec i { s with prog := s.prog.append (encode i) } = .next t →
    (hostStep (hostAppend (encode i) s).1).1 = t

/-- R152: READ, when the block is not RUNNING, returns every register, the pc, the flag, the remainder, the status
registers, `len(P)` and the program bytes, and changes nothing. -/
def Obligations.ReadReturnsWholeState : Prop :=
  ∀ s : State, s.runState ≠ .running → ∃ v, hostRead s = (s, .values v) ∧
    v.regs = s.regs ∧ v.pc = s.pc ∧ v.equalFlag = s.equalFlag ∧ v.remainder = s.remainder ∧
    v.faultKind = s.faultKind ∧ v.faultPc = s.faultPc ∧ v.len = s.prog.len ∧
    (v.runState = 0 ↔ s.runState = .idle) ∧ (v.runState = 2 ↔ s.runState = .faulted) ∧
    v.bytes = s.prog.map (fun c => c.2)

/-- R162, R161: CLEAR empties program memory and changes no block state; RESET followed by CLEAR is the power-on
state (decision D17). -/
def Obligations.ClearEmptiesTheProgram : Prop :=
  ∀ s : State, (s.runState ≠ .running → hostClear s = ({ s with prog := [] }, .none)) ∧
    (hostClear (hostReset s).1).1 = State.reset

/-- R165: while a RUN is in progress every command but RESET is refused and has no effect. -/
def Obligations.CommandsDuringRunAreRefused : Prop :=
  ∀ (fuel : Nat) (c : Command) (s : State), s.runState = .running → c ≠ .reset → command fuel c s = (s, .refused)

/-! A second description of the block, and the toolchain. -/

/-- R67: the datapath that the decoder's control outputs drive does, for every instruction in every state, what
`exec` does. -/
def Obligations.DatapathRefinesExec : Prop := ∀ (i : Instr) (s : State), datapath i s = exec i s

/-- R71, R87, by the spec's own inference ("This holds when `M` is written with exactly the operands of rule R87"):
the well-formed assembly line of every instruction assembles to its encoding, which decodes back. -/
def Obligations.AssembledLineDecodesBack : Prop :=
  ∀ i : Instr, i ≠ .illegal → assembleLine (sourceLine i) = .ok (encode i, []) ∧ decode (encode i) = .ok (i, [])

/-- R61, R86: a line that assembles gives 1 to 7 bytes. -/
def Obligations.AssembledLineIsOneToSevenBytes : Prop :=
  ∀ (line rest : List Char) (bytes : List Byte), assembleLine line = .ok (bytes, rest) →
    1 ≤ bytes.length ∧ bytes.length ≤ 7

/-- R79, R85: a name the table does not hold assembles, alone on its line, to the illegal opcode byte; no error. -/
def Obligations.UnknownMnemonicAssemblesToIllegal : Prop :=
  ∀ w : List Char, w ≠ [] → (∀ c ∈ w, c.isAlpha = true) → w.map Char.toLower ∉ nameTable.map (fun row => row.1) →
    assembleLine w = .ok ([0x0F], [])
end

