-- ==== Sys2Proof/Laws/Arith.lean ====
section
/-! SUPPORT. The program-counter unit and the ALU in integers. -/

namespace Sys2Proof.Machine

/-- Every fault code is one of spec/60_exceptions.md R140's. -/
theorem FaultKind.code_range (k : FaultKind) : 1 ≤ k.code.toNat ∧ k.code.toNat ≤ 6 := by cases k <;> decide

/-- The range of an `int32` (spec/00_scope.md R9). -/
theorem word_range (v : Word) : -2147483648 ≤ v.toInt ∧ v.toInt ≤ 2147483647 := by
  have lo := BitVec.le_toInt v
  have hi := BitVec.toInt_lt (x := v)
  omega

/-- SEQ is exact where the sum fits. -/
theorem toInt_seqPc {a : PcVal} {n : Nat} (h0 : 0 ≤ a.toInt) (h : a.toInt + n < 2 ^ 63) :
    (seqPc a n).toInt = a.toInt + n := by
  have hn : (n : Int).bmod (2 ^ 64) = n := by rw [Int.bmod_eq_of_le] <;> omega
  rw [seqPc, BitVec.toInt_add, BitVec.toInt_ofNat', hn, Int.bmod_eq_of_le] <;> omega

/-- ABS is exact. -/
@[simp] theorem toInt_absPc (v : Word) : (absPc v).toInt = v.toInt :=
  BitVec.toInt_signExtend_of_le (by decide)

/-- REL is exact where the base fits. -/
theorem toInt_relPc {a : PcVal} (v : Word) (h0 : 0 ≤ a.toInt) (h : a.toInt < 2 ^ 62) :
    (relPc a v).toInt = a.toInt + 2 + v.toInt := by
  have hv := word_range v
  have ha : (seqPc a 2).toInt = a.toInt + 2 := toInt_seqPc h0 (by omega)
  have hs : (sextPc v).toInt = v.toInt := toInt_absPc v
  rw [relPc, BitVec.toInt_add, ha, hs, Int.bmod_eq_of_le] <;> omega

/-- `wrap32` of an integer in range is that integer. -/
theorem toInt_wrap32 {n : Int} (h0 : -2147483648 ≤ n) (h1 : n ≤ 2147483647) : (wrap32 n).toInt = n := by
  rw [wrap32, BitVec.toInt_ofInt, Int.bmod_eq_of_le] <;> omega

/-- The remainder of R109 is the remainder of truncating division. -/
theorem aluRem_eq (A B : Word) : aluRem A B = BitVec.ofInt 32 (A.toInt.tmod B.toInt) := by
  rw [aluRem, quotient, Int.tmod_def, Int.mul_comm]

/-- `wrap32` of the exact sum is 32-bit addition. -/
theorem aluAdd_eq (A B : Word) : aluAdd A B = A + B := by
  simp [aluAdd, wrap32, BitVec.ofInt_add]

/-- `wrap32` of the exact difference is 32-bit subtraction. -/
theorem aluSub_eq (A B : Word) : aluSub A B = A - B := by
  rw [aluSub, wrap32, Int.sub_eq_add_neg, BitVec.ofInt_add, BitVec.ofInt_neg]
  simp [BitVec.sub_eq_add_neg]

/-- `wrap32` of the exact product is 32-bit multiplication. -/
theorem aluMul_eq (A B : Word) : aluMul A B = A * B := by
  simp [aluMul, wrap32, BitVec.ofInt_mul]

end Sys2Proof.Machine
end

