-- ==== Sys2Proof/Laws/Assembler.lean ====
section
/-! SUPPORT. The scanner on the text of tokens: decimal numbers read back, names resolve, spaces are skipped. -/

namespace Sys2Proof.Machine

theorem decimalValue_append (ds : List Char) (c : Char) :
    decimalValue (ds ++ [c]) = 10 * decimalValue ds + (c.toNat - 48) := by
  simp [decimalValue, List.foldl_append]

theorem digitChar_spec (d : Fin 10) : (digitChar d.val).isDigit = true ∧ (digitChar d.val).toNat - 48 = d.val := by
  revert d; decide

theorem digitChar_lt {d : Nat} (h : d < 10) : (digitChar d).isDigit = true ∧ (digitChar d).toNat - 48 = d :=
  digitChar_spec ⟨d, h⟩

theorem decimalDigits_spec (fuel n : Nat) (h : n < fuel) :
    (∀ c ∈ decimalDigits fuel n, c.isDigit = true) ∧ decimalValue (decimalDigits fuel n) = n ∧
      decimalDigits fuel n ≠ [] := by
  induction fuel generalizing n with
  | zero => omega
  | succ fuel ih =>
    unfold decimalDigits
    split
    · rename_i hn
      have hd := digitChar_lt hn
      simp [decimalValue, hd.1, hd.2]
    · obtain ⟨hall, hval, _⟩ := ih (n / 10) (by omega)
      have hd := digitChar_lt (Nat.mod_lt n (by decide : 10 > 0))
      refine ⟨?_, ?_, by simp⟩
      · intro c hc
        rcases List.mem_append.1 hc with hc | hc
        · exact hall c hc
        · rw [List.mem_singleton.1 hc]; exact hd.1
      · rw [decimalValue_append, hval, hd.2]; omega

/-- A number's decimal text is digits only, and reads back. -/
theorem decimalText_spec (n : Nat) :
    (∀ c ∈ decimalText n, c.isDigit = true) ∧ decimalValue (decimalText n) = n ∧ decimalText n ≠ [] :=
  decimalDigits_spec (n + 1) n (Nat.lt_succ_self n)

section
variable {p : Char → Bool} {xs : List Char}

/-- A run of characters of one class, ended by a space. -/
theorem takeWhile_run (h : ∀ c ∈ xs, p c = true) (hb : p ' ' = false) (rest : List Char) :
    (xs ++ ' ' :: rest).takeWhile p = xs := by
  rw [List.takeWhile_append_of_pos h, List.takeWhile_cons_of_neg (by simp [hb]), List.append_nil]

theorem dropWhile_run (h : ∀ c ∈ xs, p c = true) (hb : p ' ' = false) (rest : List Char) :
    (xs ++ ' ' :: rest).dropWhile p = ' ' :: rest := by
  rw [List.dropWhile_append_of_pos h, List.dropWhile_cons_of_neg (by simp [hb])]

end

/-- A space before a token is skipped (spec/30_encoding.md R76). -/
theorem scanNext_space (cs : List Char) : scanNext (' ' :: cs) = scanNext cs := by
  unfold scanNext
  rw [List.dropWhile_cons_of_pos (by decide)]

theorem numericToken_text {max n : Nat} (h : n ≤ max) (mk : Nat → Token) (rest : List Char) :
    numericToken max mk (decimalText n ++ ' ' :: rest) = .ok (.token (mk n) (' ' :: rest)) := by
  obtain ⟨hall, hval, hne⟩ := decimalText_spec n
  simp only [numericToken]
  rw [takeWhile_run hall (by decide), dropWhile_run hall (by decide), hval, if_neg hne, if_neg (Nat.not_lt.2 h)]

/-- A `$` and a register index scan to that register (R77). -/
theorem scanNext_register (i : Byte) (rest : List Char) :
    scanNext (Token.text (.register i) ++ ' ' :: rest) = .ok (.token (.register i) (' ' :: rest)) := by
  have h : i.toNat ≤ 255 := by omega
  simp only [Token.text, List.cons_append, scanNext]
  rw [List.dropWhile_cons_of_neg (by decide)]
  simp only [if_true]
  rw [numericToken_text h]
  simp

/-- A `#` and a number scan to that number (R78). -/
theorem scanNext_number {v : Nat} (h : v ≤ 2147483647) (rest : List Char) :
    scanNext (Token.text (.number v) ++ ' ' :: rest) = .ok (.token (.number v) (' ' :: rest)) := by
  simp only [Token.text, List.cons_append, scanNext]
  rw [List.dropWhile_cons_of_neg (by decide)]
  have hc : ('#' : Char) ≠ '$' := by decide
  simp only [hc, if_false, if_true]
  exact numericToken_text h _ rest

/-- A name of letters scans to the opcode it resolves to (R79). -/
theorem scanNext_name {c : Char} {cs : List Char} (hc : c.isAlpha = true) (hcs : ∀ d ∈ cs, d.isAlpha = true)
    (hb : isBlank c = false) (h1 : c ≠ '$') (h2 : c ≠ '#') (rest : List Char) :
    scanNext (c :: cs ++ ' ' :: rest) = .ok (.token (.opcode (resolveName (c :: cs))) (' ' :: rest)) := by
  simp only [List.cons_append, scanNext]
  rw [List.dropWhile_cons_of_neg (by simp [hb])]
  simp only [h1, h2, hc, if_false, if_true]
  rw [takeWhile_run hcs (by decide), dropWhile_run hcs (by decide)]

/-- The mnemonics: letters that resolve to their opcode. -/
theorem nameOf_spec {op : Opcode} (h : op ≠ .illegal) : ∃ c cs, nameOf nameTable op = c :: cs ∧ c.isAlpha = true ∧
    cs.all Char.isAlpha = true ∧ isBlank c = false ∧ c ≠ '$' ∧ c ≠ '#' ∧ resolveName (c :: cs) = op := by
  cases op with
  | load => exact ⟨'l', ['o', 'a', 'd'], by decide, by decide, by decide, by decide, by decide, by decide, by decide⟩
  | add => exact ⟨'a', ['d', 'd'], by decide, by decide, by decide, by decide, by decide, by decide, by decide⟩
  | sub => exact ⟨'s', ['u', 'b'], by decide, by decide, by decide, by decide, by decide, by decide, by decide⟩
  | mul => exact ⟨'m', ['u', 'l'], by decide, by decide, by decide, by decide, by decide, by decide, by decide⟩
  | div => exact ⟨'d', ['i', 'v'], by decide, by decide, by decide, by decide, by decide, by decide, by decide⟩
  | hlt => exact ⟨'h', ['l', 't'], by decide, by decide, by decide, by decide, by decide, by decide, by decide⟩
  | jmp => exact ⟨'j', ['m', 'p'], by decide, by decide, by decide, by decide, by decide, by decide, by decide⟩
  | jmpf => exact ⟨'j', ['m', 'p', 'f'], by decide, by decide, by decide, by decide, by decide, by decide, by decide⟩
  | eq => exact ⟨'e', ['q'], by decide, by decide, by decide, by decide, by decide, by decide, by decide⟩
  | neq => exact ⟨'n', ['e', 'q'], by decide, by decide, by decide, by decide, by decide, by decide, by decide⟩
  | gte => exact ⟨'g', ['t', 'e'], by decide, by decide, by decide, by decide, by decide, by decide, by decide⟩
  | lte => exact ⟨'l', ['t', 'e'], by decide, by decide, by decide, by decide, by decide, by decide, by decide⟩
  | lt => exact ⟨'l', ['t'], by decide, by decide, by decide, by decide, by decide, by decide, by decide⟩
  | gt => exact ⟨'g', ['t'], by decide, by decide, by decide, by decide, by decide, by decide, by decide⟩
  | jmpe => exact ⟨'j', ['m', 'p', 'e'], by decide, by decide, by decide, by decide, by decide, by decide, by decide⟩
  | illegal => exact absurd rfl h

/-- A mnemonic scans to its opcode (R79). -/
theorem scanNext_opcode {op : Opcode} (h : op ≠ .illegal) (rest : List Char) :
    scanNext (Token.text (.opcode op) ++ ' ' :: rest) = .ok (.token (.opcode op) (' ' :: rest)) := by
  obtain ⟨c, cs, hname, hc, hcs, hb, h1, h2, hres⟩ := nameOf_spec h
  simp only [Token.text, hname]
  rw [scanNext_name hc (List.all_eq_true.1 hcs) hb h1 h2, hres]

end Sys2Proof.Machine
end

