-- ==== Sys2Proof/Laws/Config.lean ====
section
/-! SUPPORT. All that is known of PROG_MAX: 1 <= PROG_MAX <= 2^32 (spec/00_scope.md R7). -/

namespace Sys2Proof.Config

theorem progMax_pos : 1 ≤ progMax := Nat.le_add_left 1 _

theorem progMax_le : progMax ≤ 2 ^ 32 := Nat.succ_le_of_lt progMaxPred.isLt

end Sys2Proof.Config
end

