-- ==== Sys2Proof/Laws/Decode.lean ====
section
/-! SUPPORT. The decoder: the opcode table read both ways, and what `decode` consumes. -/

namespace Sys2Proof

@[simp] theorem decodeOpcode_code (op : Opcode) : decodeOpcode op.code = op := by cases op <;> decide

theorem Opcode.length_pos (op : Opcode) : 1 ≤ op.length := by cases op <;> decide

theorem Opcode.length_le_four (op : Opcode) : op.length ≤ 4 := by cases op <;> decide

/-- The two bytes of an immediate, put together again. -/
@[simp] theorem immOfBytes_extract (imm16 : Half) : immOfBytes (imm16.extractLsb' 8 8) (imm16.extractLsb' 0 8) = imm16 := by
  apply BitVec.eq_of_getLsbD_eq
  intro i hi
  simp only [immOfBytes, BitVec.getLsbD_append, BitVec.getLsbD_extractLsb']
  by_cases h : i < 8
  · simp [h]
  · have h8 : 8 + (i - 8) = i := by omega
    simp [h, h8, show i - 8 < 8 by omega]

@[simp] theorem immBytes_immOfBytes (hi lo : Byte) : immBytes (immOfBytes hi lo) = [hi, lo] := by
  have high : (immOfBytes hi lo).extractLsb' 8 8 = hi := by
    apply BitVec.eq_of_getLsbD_eq
    intro i hi'
    simp only [immOfBytes, BitVec.getLsbD_extractLsb', BitVec.getLsbD_append]
    simp [hi']
  have low : (immOfBytes hi lo).extractLsb' 0 8 = lo := by
    apply BitVec.eq_of_getLsbD_eq
    intro i hi'
    simp only [immOfBytes, BitVec.getLsbD_extractLsb', BitVec.getLsbD_append]
    simp [hi']
  simp [immBytes, high, low]

section
variable {op : Opcode} {mk3 : Byte → Byte → Byte → Instr} {mk1 : Byte → Instr} {bytes rest : List Byte} {i : Instr}

theorem takeThree_ok (h : takeThree op mk3 bytes = .ok (i, rest)) :
    ∃ b1 b2 b3, bytes = b1 :: b2 :: b3 :: rest ∧ i = mk3 b1 b2 b3 := by
  match bytes, h with
  | b1 :: b2 :: b3 :: _, h =>
    simp only [takeThree, Except.ok.injEq, Prod.mk.injEq] at h
    exact ⟨b1, b2, b3, by rw [h.2], h.1.symm⟩

theorem takeOne_ok (h : takeOne op mk1 bytes = .ok (i, rest)) : ∃ b1, bytes = b1 :: rest ∧ i = mk1 b1 := by
  match bytes, h with
  | b1 :: _, h =>
    simp only [takeOne, Except.ok.injEq, Prod.mk.injEq] at h
    exact ⟨b1, by rw [h.2], h.1.symm⟩

end

/-- The instruction decoded is of the opcode decoded, and its operand bytes are the `Len(op) - 1` bytes after the
opcode byte; what follows is left. -/
theorem decodeOperands_ok {op : Opcode} {bytes rest : List Byte} {i : Instr}
    (h : decodeOperands op bytes = .ok (i, rest)) : i.opcode = op ∧ bytes = i.operandBytes ++ rest := by
  cases op <;> simp only [decodeOperands] at h
  case hlt => cases h; exact ⟨rfl, rfl⟩
  case illegal => cases h; exact ⟨rfl, rfl⟩
  case load =>
    obtain ⟨_, _, _, rfl, rfl⟩ := takeThree_ok h
    simp [Instr.opcode, Instr.operandBytes]
  case jmp => obtain ⟨_, rfl, rfl⟩ := takeOne_ok h; simp [Instr.opcode, Instr.operandBytes]
  case jmpf => obtain ⟨_, rfl, rfl⟩ := takeOne_ok h; simp [Instr.opcode, Instr.operandBytes]
  case jmpe => obtain ⟨_, rfl, rfl⟩ := takeOne_ok h; simp [Instr.opcode, Instr.operandBytes]
  all_goals
    obtain ⟨_, _, _, rfl, rfl⟩ := takeThree_ok h
    simp [Instr.opcode, Instr.operandBytes]

@[simp] theorem length_operandBytes (i : Instr) : i.operandBytes.length + 1 = i.opcode.length := by cases i <;> rfl

/-- Enough bytes after the opcode byte: the operands decode. -/
theorem decodeOperands_answers {op : Opcode} {bytes : List Byte} (h : op.length ≤ bytes.length + 1) :
    ∃ i rest, decodeOperands op bytes = .ok (i, rest) := by
  have three : ∀ (op' : Opcode) (mk : Byte → Byte → Byte → Instr), 3 ≤ bytes.length →
      ∃ i rest, takeThree op' mk bytes = .ok (i, rest) := by
    intro op' mk hl
    match bytes, hl with
    | b1 :: b2 :: b3 :: rest, _ => exact ⟨_, _, rfl⟩
  have one : ∀ (op' : Opcode) (mk : Byte → Instr), 1 ≤ bytes.length →
      ∃ i rest, takeOne op' mk bytes = .ok (i, rest) := by
    intro op' mk hl
    match bytes, hl with
    | b1 :: rest, _ => exact ⟨_, _, rfl⟩
  cases op <;> simp only [Opcode.length] at h <;> simp only [decodeOperands]
  case hlt => exact ⟨_, _, rfl⟩
  case illegal => exact ⟨_, _, rfl⟩
  case jmp => exact one _ _ (by omega)
  case jmpf => exact one _ _ (by omega)
  case jmpe => exact one _ _ (by omega)
  all_goals exact three _ _ (by omega)

/-- Too few bytes after the opcode byte: refused by name. -/
theorem decodeOperands_truncated {op : Opcode} {bytes : List Byte} (h : bytes.length + 1 < op.length) :
    decodeOperands op bytes = .error (.truncated op) := by
  have three : ∀ (op' : Opcode) (mk : Byte → Byte → Byte → Instr), bytes.length < 3 →
      takeThree op' mk bytes = .error (.truncated op') := by
    intro op' mk hl
    match bytes, hl with
    | [], _ => rfl
    | [_], _ => rfl
    | [_, _], _ => rfl
  have one : ∀ (op' : Opcode) (mk : Byte → Instr), bytes.length < 1 →
      takeOne op' mk bytes = .error (.truncated op') := by
    intro op' mk hl
    match bytes, hl with
    | [], _ => rfl
  cases op <;> simp only [Opcode.length] at h <;> simp only [decodeOperands]
  case hlt => omega
  case illegal => omega
  case jmp => exact one _ _ (by omega)
  case jmpf => exact one _ _ (by omega)
  case jmpe => exact one _ _ (by omega)
  all_goals exact three _ _ (by omega)

/-- Decoding depends on the instruction's own bytes only: what follows them is passed on. -/
theorem decodeOperands_append {op : Opcode} {bytes rest more : List Byte} {i : Instr}
    (h : decodeOperands op bytes = .ok (i, rest)) : decodeOperands op (bytes ++ more) = .ok (i, rest ++ more) := by
  cases op <;> simp only [decodeOperands] at h ⊢
  case hlt => simp_all
  case illegal => simp_all
  case jmp => obtain ⟨_, rfl, rfl⟩ := takeOne_ok h; rfl
  case jmpf => obtain ⟨_, rfl, rfl⟩ := takeOne_ok h; rfl
  case jmpe => obtain ⟨_, rfl, rfl⟩ := takeOne_ok h; rfl
  all_goals obtain ⟨_, _, _, rfl, rfl⟩ := takeThree_ok h; rfl

end Sys2Proof
end

