-- ==== Sys2Proof/Laws/State.lean ====
section
/-! SUPPORT. One lemma per field per update of State. -/

namespace Sys2Proof.Machine

section
variable (s : State) (i : Fin 32) (v : Word)

@[simp] theorem State.setReg_regs : (s.setReg i v).regs = s.regs.set i.val v := rfl
@[simp] theorem State.setReg_pc : (s.setReg i v).pc = s.pc := rfl
@[simp] theorem State.setReg_equalFlag : (s.setReg i v).equalFlag = s.equalFlag := rfl
@[simp] theorem State.setReg_remainder : (s.setReg i v).remainder = s.remainder := rfl
@[simp] theorem State.setReg_runState : (s.setReg i v).runState = s.runState := rfl
@[simp] theorem State.setReg_faultKind : (s.setReg i v).faultKind = s.faultKind := rfl
@[simp] theorem State.setReg_faultPc : (s.setReg i v).faultPc = s.faultPc := rfl
@[simp] theorem State.setReg_prog : (s.setReg i v).prog = s.prog := rfl
@[simp] theorem State.setReg_result : (s.setReg i v).result = s.result := rfl

end

section
variable (s : State) (v : Word)

@[simp] theorem State.setRemainder_regs : (s.setRemainder v).regs = s.regs := rfl
@[simp] theorem State.setRemainder_pc : (s.setRemainder v).pc = s.pc := rfl
@[simp] theorem State.setRemainder_equalFlag : (s.setRemainder v).equalFlag = s.equalFlag := rfl
@[simp] theorem State.setRemainder_remainder : (s.setRemainder v).remainder = v := rfl
@[simp] theorem State.setRemainder_runState : (s.setRemainder v).runState = s.runState := rfl
@[simp] theorem State.setRemainder_faultKind : (s.setRemainder v).faultKind = s.faultKind := rfl
@[simp] theorem State.setRemainder_faultPc : (s.setRemainder v).faultPc = s.faultPc := rfl
@[simp] theorem State.setRemainder_prog : (s.setRemainder v).prog = s.prog := rfl
@[simp] theorem State.setRemainder_result : (s.setRemainder v).result = s.result := rfl

end

section
variable (s : State) (f : Bool)

@[simp] theorem State.setEqualFlag_regs : (s.setEqualFlag f).regs = s.regs := rfl
@[simp] theorem State.setEqualFlag_pc : (s.setEqualFlag f).pc = s.pc := rfl
@[simp] theorem State.setEqualFlag_equalFlag : (s.setEqualFlag f).equalFlag = f := rfl
@[simp] theorem State.setEqualFlag_remainder : (s.setEqualFlag f).remainder = s.remainder := rfl
@[simp] theorem State.setEqualFlag_runState : (s.setEqualFlag f).runState = s.runState := rfl
@[simp] theorem State.setEqualFlag_faultKind : (s.setEqualFlag f).faultKind = s.faultKind := rfl
@[simp] theorem State.setEqualFlag_faultPc : (s.setEqualFlag f).faultPc = s.faultPc := rfl
@[simp] theorem State.setEqualFlag_prog : (s.setEqualFlag f).prog = s.prog := rfl
@[simp] theorem State.setEqualFlag_result : (s.setEqualFlag f).result = s.result := rfl

end

section
variable (s : State) (r : StepResult)

@[simp] theorem State.report_regs : (s.report r).regs = s.regs := rfl
@[simp] theorem State.report_pc : (s.report r).pc = s.pc := rfl
@[simp] theorem State.report_equalFlag : (s.report r).equalFlag = s.equalFlag := rfl
@[simp] theorem State.report_remainder : (s.report r).remainder = s.remainder := rfl
@[simp] theorem State.report_runState : (s.report r).runState = s.runState := rfl
@[simp] theorem State.report_faultKind : (s.report r).faultKind = s.faultKind := rfl
@[simp] theorem State.report_faultPc : (s.report r).faultPc = s.faultPc := rfl
@[simp] theorem State.report_prog : (s.report r).prog = s.prog := rfl
@[simp] theorem State.report_result : (s.report r).result = some r := rfl

end

section
variable (s : State) (pc : PcVal) (cont : Bool)

@[simp] theorem State.retire_regs : (s.retire pc cont).regs = s.regs := rfl
@[simp] theorem State.retire_pc : (s.retire pc cont).pc = pc := rfl
@[simp] theorem State.retire_equalFlag : (s.retire pc cont).equalFlag = s.equalFlag := rfl
@[simp] theorem State.retire_remainder : (s.retire pc cont).remainder = s.remainder := rfl
@[simp] theorem State.retire_runState : (s.retire pc cont).runState = s.runState := rfl
@[simp] theorem State.retire_faultKind : (s.retire pc cont).faultKind = s.faultKind := rfl
@[simp] theorem State.retire_faultPc : (s.retire pc cont).faultPc = s.faultPc := rfl
@[simp] theorem State.retire_prog : (s.retire pc cont).prog = s.prog := rfl
@[simp] theorem State.retire_result : (s.retire pc cont).result = some (.executed cont) := rfl

end

section
variable (s : State) (k : FaultKind)

@[simp] theorem State.raise_regs : (s.raise k).regs = s.regs := rfl
@[simp] theorem State.raise_pc : (s.raise k).pc = s.pc := rfl
@[simp] theorem State.raise_equalFlag : (s.raise k).equalFlag = s.equalFlag := rfl
@[simp] theorem State.raise_remainder : (s.raise k).remainder = s.remainder := rfl
@[simp] theorem State.raise_runState : (s.raise k).runState = .faulted := rfl
@[simp] theorem State.raise_faultKind : (s.raise k).faultKind = k.code := rfl
@[simp] theorem State.raise_faultPc : (s.raise k).faultPc = s.pc := rfl
@[simp] theorem State.raise_prog : (s.raise k).prog = s.prog := rfl
@[simp] theorem State.raise_result : (s.raise k).result = some (.fault k.code) := rfl

end

section
variable (s : State)

@[simp] theorem State.resetBlock_regs : s.resetBlock.regs = State.reset.regs := rfl
@[simp] theorem State.resetBlock_pc : s.resetBlock.pc = State.reset.pc := rfl
@[simp] theorem State.resetBlock_equalFlag : s.resetBlock.equalFlag = State.reset.equalFlag := rfl
@[simp] theorem State.resetBlock_remainder : s.resetBlock.remainder = State.reset.remainder := rfl
@[simp] theorem State.resetBlock_runState : s.resetBlock.runState = State.reset.runState := rfl
@[simp] theorem State.resetBlock_faultKind : s.resetBlock.faultKind = State.reset.faultKind := rfl
@[simp] theorem State.resetBlock_faultPc : s.resetBlock.faultPc = State.reset.faultPc := rfl
@[simp] theorem State.resetBlock_prog : s.resetBlock.prog = s.prog := rfl
@[simp] theorem State.resetBlock_result : s.resetBlock.result = State.reset.result := rfl

end

/-- Reading a register after a write: the value written, or what was there. -/
theorem State.x_setReg (s : State) (i j : Fin 32) (v : Word) :
    (s.setReg i v).x j = if i = j then v else s.x j := by
  simp only [State.x, State.setReg_regs, Vector.getElem_set, Fin.ext_iff]

@[simp] theorem State.x_report (s : State) (r : StepResult) (i : Fin 32) : (s.report r).x i = s.x i := rfl

@[simp] theorem State.x_retire (s : State) (pc : PcVal) (c : Bool) (i : Fin 32) : (s.retire pc c).x i = s.x i := rfl

@[simp] theorem State.x_raise (s : State) (k : FaultKind) (i : Fin 32) : (s.raise k).x i = s.x i := rfl

section
variable (s : State)

/-- The end of a round changes `run_state` only. -/
theorem State.endRound_eq : ∃ r, s.endRound = { s with runState := r } := by
  unfold State.endRound
  split <;> exact ⟨_, rfl⟩

@[simp] theorem State.endRound_regs : s.endRound.regs = s.regs := by
  obtain ⟨_, h⟩ := s.endRound_eq; rw [h]
@[simp] theorem State.endRound_pc : s.endRound.pc = s.pc := by
  obtain ⟨_, h⟩ := s.endRound_eq; rw [h]
@[simp] theorem State.endRound_equalFlag : s.endRound.equalFlag = s.equalFlag := by
  obtain ⟨_, h⟩ := s.endRound_eq; rw [h]
@[simp] theorem State.endRound_remainder : s.endRound.remainder = s.remainder := by
  obtain ⟨_, h⟩ := s.endRound_eq; rw [h]
@[simp] theorem State.endRound_faultKind : s.endRound.faultKind = s.faultKind := by
  obtain ⟨_, h⟩ := s.endRound_eq; rw [h]
@[simp] theorem State.endRound_faultPc : s.endRound.faultPc = s.faultPc := by
  obtain ⟨_, h⟩ := s.endRound_eq; rw [h]
@[simp] theorem State.endRound_prog : s.endRound.prog = s.prog := by
  obtain ⟨_, h⟩ := s.endRound_eq; rw [h]
@[simp] theorem State.endRound_result : s.endRound.result = s.result := by
  obtain ⟨_, h⟩ := s.endRound_eq; rw [h]

/-- A fault is not touched by the end of the round. -/
@[simp] theorem State.endRound_raise (k : FaultKind) : (s.raise k).endRound = s.raise k := rfl

end

@[simp] theorem mapNext_next (f : State → State) (s : State) : mapNext f (.next s) = .next (f s) := rfl

theorem mapNext_eq_next {f : State → State} {o : Out} {t : State} (h : mapNext f o = .next t) :
    ∃ u, o = .next u ∧ t = f u := by
  cases o with
  | next u => exact ⟨u, rfl, by simpa [mapNext, eq_comm] using h⟩
  | fault r => cases h
  | refused r => cases h

end Sys2Proof.Machine
end

