-- ==== Sys2Proof/Laws/Operands.lean ====
section
/-! SUPPORT. The register-file port: what each access does, once. -/

namespace Sys2Proof.Machine

theorem regIndex_of_lt {field : Byte} (h : field.toNat < 32) : regIndex field = some ⟨field.toNat, h⟩ := by
  simp [regIndex, h]

theorem regIndex_of_ge {field : Byte} (h : 32 ≤ field.toNat) : regIndex field = none := by
  simp [regIndex, Nat.not_lt.2 h]

section
variable {field : Byte} {s t : State}

theorem withDst_of_lt (h : field.toNat < 32) (k : Fin 32 → Out) : withDst field s k = k ⟨field.toNat, h⟩ := by
  simp [withDst, regIndex_of_lt h]

theorem withDst_of_ge (h : 32 ≤ field.toNat) (k : Fin 32 → Out) : withDst field s k = .next (s.raise .addressing) := by
  simp [withDst, regIndex_of_ge h]

theorem withSrc_of_lt (h : field.toNat < 32) (k : Word → Out) :
    withSrc field s k = k (s.x ⟨field.toNat, h⟩) := withDst_of_lt h _

theorem withSrc_of_ge (h : 32 ≤ field.toNat) (k : Word → Out) :
    withSrc field s k = .next (s.raise .addressing) := withDst_of_ge h _

/-- A write-port access goes on with an index, or takes AddressingFault. -/
theorem withDst_next {k : Fin 32 → Out} (h : withDst field s k = .next t) :
    (∃ hlt : field.toNat < 32, k ⟨field.toNat, hlt⟩ = .next t) ∨ t = s.raise .addressing := by
  by_cases hlt : field.toNat < 32
  · exact .inl ⟨hlt, by rwa [withDst_of_lt hlt] at h⟩
  · rw [withDst_of_ge (Nat.not_lt.1 hlt)] at h
    exact .inr (by simpa [eq_comm] using h)

/-- A read-port access goes on with the register's value, or takes AddressingFault. -/
theorem withSrc_next {k : Word → Out} (h : withSrc field s k = .next t) :
    (∃ hlt : field.toNat < 32, k (s.x ⟨field.toNat, hlt⟩) = .next t) ∨ t = s.raise .addressing := withDst_next h

/-- If every continuation answers a next state, so does the access. -/
theorem withDst_answers {k : Fin 32 → Out} (h : ∀ i, ∃ t, k i = .next t) : ∃ t, withDst field s k = .next t := by
  by_cases hlt : field.toNat < 32
  · rw [withDst_of_lt hlt]; exact h _
  · rw [withDst_of_ge (Nat.not_lt.1 hlt)]; exact ⟨_, rfl⟩

theorem withSrc_answers {k : Word → Out} (h : ∀ v, ∃ t, k v = .next t) : ∃ t, withSrc field s k = .next t :=
  withDst_answers fun _ => h _

end

end Sys2Proof.Machine
end

