-- ==== Sys2Proof/Laws/Exec.lean ====
section
/-! SUPPORT. Said once: everything that executing an instruction can do. -/

namespace Sys2Proof.Machine

/-- `i` executed from `s` to `t`: what is written, and what is kept. -/
structure Retired (i : Instr) (s t : State) : Prop where
  result : t.result = some (.executed (decide (i ≠ .hlt)))
  runState : t.runState = s.runState
  faultKind : t.faultKind = s.faultKind
  faultPc : t.faultPc = s.faultPc
  prog : t.prog = s.prog
  equalFlag : isComparison i = false → t.equalFlag = s.equalFlag
  remainder : isDivision i = false → t.remainder = s.remainder
  regs : ∀ j : Fin 32, destination i ≠ some (BitVec.ofNat 8 j.val) → t.x j = s.x j
  pc : t.pc = seqPc s.pc i.opcode.length ∨ (∃ v, t.pc = absPc v) ∨ ∃ v, t.pc = relPc s.pc v

/-- The index of a register field, written back as a byte. -/
theorem ofNat_field {field : Byte} (h : field.toNat < 32) (j : Fin 32) (hj : some field ≠ some (BitVec.ofNat 8 j.val)) :
    (⟨field.toNat, h⟩ : Fin 32) ≠ j := by
  rintro rfl
  exact hj (by simp)

variable {s t : State}

theorem execLoad_next {dst : Byte} {imm16 : Half} (h : execLoad dst imm16 s = .next t) :
    Retired (.load dst imm16) s t ∨ ∃ k, t = s.raise k := by
  obtain ⟨hd, h⟩ | h := withDst_next h
  · cases h
    exact .inl ⟨rfl, rfl, rfl, rfl, rfl, fun _ => rfl, fun _ => rfl,
      fun j hj => by simp [State.x_setReg, ofNat_field hd j hj], .inl rfl⟩
  · exact .inr ⟨_, h⟩

/-- `add`, `sub` and `mul` write the destination register and the pc. -/
theorem arith_next {f : Word → Word → Word} {src1 src2 dst : Byte} (h : arith f src1 src2 dst s = .next t) :
    (∃ d : Fin 32, ∃ v, d.val = dst.toNat ∧ t = (s.setReg d v).retire (seqPc s.pc 4) true) ∨ ∃ k, t = s.raise k := by
  obtain ⟨_, h⟩ | h := withSrc_next h
  · obtain ⟨_, h⟩ | h := withSrc_next h
    · obtain ⟨hd, h⟩ | h := withDst_next h
      · cases h; exact .inl ⟨⟨dst.toNat, hd⟩, _, rfl, rfl⟩
      · exact .inr ⟨_, h⟩
    · exact .inr ⟨_, h⟩
  · exact .inr ⟨_, h⟩

theorem setReg_keeps {dst : Byte} {d : Fin 32} (hd : d.val = dst.toNat) (s : State) (v : Word) (j : Fin 32)
    (hj : some dst ≠ some (BitVec.ofNat 8 j.val)) : (s.setReg d v).x j = s.x j := by
  have hlt : dst.toNat < 32 := hd ▸ d.isLt
  have : d = ⟨dst.toNat, hlt⟩ := Fin.ext hd
  rw [State.x_setReg, this, if_neg (ofNat_field hlt j hj)]

theorem execDiv_next {src1 src2 dst : Byte} (h : execDiv src1 src2 dst s = .next t) :
    Retired (.div src1 src2 dst) s t ∨ ∃ k, t = s.raise k := by
  obtain ⟨_, h⟩ | h := withSrc_next h
  · obtain ⟨_, h⟩ | h := withSrc_next h
    · obtain ⟨hd, h⟩ | h := withDst_next h
      · split at h
        · cases h; exact .inr ⟨_, rfl⟩
        · cases h
          exact .inl ⟨rfl, rfl, rfl, rfl, rfl, fun _ => rfl, (by simp [isDivision]),
            fun j hj => setReg_keeps (dst := dst) (d := ⟨dst.toNat, hd⟩) rfl s _ j hj, .inl rfl⟩
      · exact .inr ⟨_, h⟩
    · exact .inr ⟨_, h⟩
  · exact .inr ⟨_, h⟩

/-- A completed instruction is no fault entry. -/
theorem Retired.not_fault {i : Instr} (h : Retired i s t) (k : FaultKind) : t ≠ s.raise k := by
  rintro rfl
  have hr := h.result
  simp at hr

/-- The comparisons write the flag and the pc. -/
theorem comparison_next {rel : Word → Word → Bool} {src1 src2 : Byte} (h : comparison rel src1 src2 s = .next t) :
    (∃ f, t = (s.setEqualFlag f).retire (seqPc s.pc 4) true) ∨ ∃ k, t = s.raise k := by
  obtain ⟨_, h⟩ | h := withSrc_next h
  · obtain ⟨_, h⟩ | h := withSrc_next h
    · cases h; exact .inl ⟨_, rfl⟩
    · exact .inr ⟨_, h⟩
  · exact .inr ⟨_, h⟩

/-- The jumps write the pc only, from a register that was read. -/
theorem jump_next {target : Word → PcVal} {r : Byte}
    (h : (withSrc r s fun T => .next (s.retire (target T) true)) = .next t) :
    (∃ v, t = s.retire (target v) true) ∨ ∃ k, t = s.raise k := by
  obtain ⟨_, h⟩ | h := withSrc_next h
  · cases h; exact .inl ⟨_, rfl⟩
  · exact .inr ⟨_, h⟩

/-- Executing an instruction either completes it or takes a fault; there is no third way. -/
theorem exec_next {i : Instr} (h : exec i s = .next t) : Retired i s t ∨ ∃ k, t = s.raise k := by
  cases i with
  | load dst imm16 => exact execLoad_next h
  | div src1 src2 dst => exact execDiv_next h
  | hlt => cases h; exact .inl ⟨rfl, rfl, rfl, rfl, rfl, fun _ => rfl, fun _ => rfl, fun _ _ => rfl, .inl rfl⟩
  | illegal => cases h; exact .inr ⟨_, rfl⟩
  | jmp r =>
    refine (jump_next h).imp_left ?_
    rintro ⟨v, rfl⟩
    exact ⟨rfl, rfl, rfl, rfl, rfl, fun _ => rfl, fun _ => rfl, fun _ _ => rfl, .inr (.inl ⟨v, rfl⟩)⟩
  | jmpf r =>
    refine (jump_next h).imp_left ?_
    rintro ⟨v, rfl⟩
    exact ⟨rfl, rfl, rfl, rfl, rfl, fun _ => rfl, fun _ => rfl, fun _ _ => rfl, .inr (.inr ⟨v, rfl⟩)⟩
  | jmpe r =>
    refine (jump_next (target := fun T => if s.equalFlag then absPc T else seqPc s.pc 2) h).imp_left ?_
    rintro ⟨v, rfl⟩
    refine ⟨rfl, rfl, rfl, rfl, rfl, fun _ => rfl, fun _ => rfl, fun _ _ => rfl, ?_⟩
    cases hf : s.equalFlag with
    | true => exact .inr (.inl ⟨v, by simp⟩)
    | false => exact .inl (by simp [Instr.opcode, Opcode.length])
  | add src1 src2 dst | sub src1 src2 dst | mul src1 src2 dst =>
    refine (arith_next h).imp_left ?_
    rintro ⟨d, v, hd, rfl⟩
    exact ⟨rfl, rfl, rfl, rfl, rfl, fun _ => rfl, fun _ => rfl, fun j hj => setReg_keeps hd s v j hj, .inl rfl⟩
  | eq src1 src2 _ | neq src1 src2 _ | gte src1 src2 _ | lte src1 src2 _ | lt src1 src2 _ | gt src1 src2 _ =>
    refine (comparison_next h).imp_left ?_
    rintro ⟨f, rfl⟩
    exact ⟨rfl, rfl, rfl, rfl, rfl, (by simp [isComparison]), fun _ => rfl, fun _ _ => rfl, .inl rfl⟩

/-- Every instruction answers a next state, in every state. -/
theorem exec_answers (i : Instr) (s : State) : ∃ t, exec i s = .next t := by
  cases i with
  | hlt | illegal => exact ⟨_, rfl⟩
  | load dst imm16 => exact withDst_answers fun _ => ⟨_, rfl⟩
  | div src1 src2 dst =>
    simp only [exec, execDiv]
    refine withSrc_answers fun A => withSrc_answers fun B => withDst_answers fun d => ?_
    cases h : divFault A B <;> exact ⟨_, rfl⟩
  | jmp r | jmpf r | jmpe r =>
    simp only [exec, execJmp, execJmpf, execJmpe]
    exact withSrc_answers fun _ => ⟨_, rfl⟩
  | add src1 src2 dst | sub src1 src2 dst | mul src1 src2 dst =>
    simp only [exec, execAdd, execSub, execMul, arith]
    exact withSrc_answers fun _ => withSrc_answers fun _ => withDst_answers fun _ => ⟨_, rfl⟩
  | eq src1 src2 _ | neq src1 src2 _ | gte src1 src2 _ | lte src1 src2 _ | lt src1 src2 _ | gt src1 src2 _ =>
    simp only [exec, execEq, execNeq, execGte, execLte, execLt, execGt, comparison]
    exact withSrc_answers fun _ => withSrc_answers fun _ => ⟨_, rfl⟩

end Sys2Proof.Machine
end

