-- ==== Sys2Proof/Laws/Memory.lean ====
section
/-! SUPPORT. Program memory: in its canonical form it is a sequence of bytes, and every operation keeps the form. -/

namespace Sys2Proof.Machine.Memory

@[simp] theorem length_cellsFrom (k : Nat) (bytes : List Byte) : (cellsFrom k bytes).length = bytes.length := by
  induction bytes generalizing k with
  | nil => rfl
  | cons b bytes ih => simp [cellsFrom, ih]

@[simp] theorem len_ofBytes (bytes : List Byte) : (ofBytes bytes).len = bytes.length := length_cellsFrom 0 bytes

@[simp] theorem length_bytes (P : Memory) : P.bytes.length = P.len := List.length_map ..

theorem map_cellsFrom (k : Nat) (bytes : List Byte) : (cellsFrom k bytes).map (fun c => c.2) = bytes := by
  induction bytes generalizing k with
  | nil => rfl
  | cons b bytes ih => simp [cellsFrom, ih]

@[simp] theorem bytes_ofBytes (bytes : List Byte) : (ofBytes bytes).bytes = bytes := map_cellsFrom 0 bytes

theorem contiguousFrom_cellsFrom (k : Nat) (bytes : List Byte) : contiguousFrom k (cellsFrom k bytes) = true := by
  induction bytes generalizing k with
  | nil => rfl
  | cons b bytes ih => simp [cellsFrom, contiguousFrom, ih]

theorem eq_cellsFrom {k : Nat} {P : Memory} (h : contiguousFrom k P = true) : P = cellsFrom k P.bytes := by
  induction P generalizing k with
  | nil => rfl
  | cons c P ih =>
    obtain ⟨offset, b⟩ := c
    simp only [contiguousFrom, Bool.and_eq_true, beq_iff_eq] at h
    have := ih h.2
    simp only [bytes, List.map_cons, cellsFrom, List.cons.injEq, Prod.mk.injEq, and_true]
    exact ⟨h.1, this⟩

/-- The canonical form is exactly the form of a byte sequence. -/
theorem wf_iff {P : Memory} : P.wf = true ↔ P = ofBytes P.bytes :=
  ⟨fun h => eq_cellsFrom h, fun h => by rw [h]; exact contiguousFrom_cellsFrom 0 _⟩

@[simp] theorem wf_ofBytes (bytes : List Byte) : (ofBytes bytes).wf = true := contiguousFrom_cellsFrom 0 bytes

@[simp] theorem wf_nil : Memory.wf [] = true := rfl

/-- Equal byte sequences are equal program memories. -/
theorem wf_ext {P Q : Memory} (hP : P.wf = true) (hQ : Q.wf = true) (h : P.bytes = Q.bytes) : P = Q := by
  rw [wf_iff.1 hP, wf_iff.1 hQ, h]

theorem cellsFrom_append (k : Nat) (xs ys : List Byte) :
    cellsFrom k (xs ++ ys) = cellsFrom k xs ++ cellsFrom (k + xs.length) ys := by
  induction xs generalizing k with
  | nil => rfl
  | cons x xs ih => simp [cellsFrom, ih, Nat.add_assoc, Nat.add_comm 1]

/-- APPEND on a canonical memory is appending to the byte sequence. -/
theorem append_eq_ofBytes {P : Memory} (h : P.wf = true) (bytes : List Byte) :
    P.append bytes = ofBytes (P.bytes ++ bytes) := by
  have hP := wf_iff.1 h
  rw [ofBytes, cellsFrom_append, length_bytes, Nat.zero_add, append]
  exact congrArg (· ++ _) hP

theorem wf_append {P : Memory} (h : P.wf = true) (bytes : List Byte) : (P.append bytes).wf = true := by
  rw [append_eq_ofBytes h]; exact wf_ofBytes _

@[simp] theorem len_append (P : Memory) (bytes : List Byte) : (P.append bytes).len = P.len + bytes.length := by
  simp [append, len]

theorem wf_placeBytes (P : Memory) (offset : Nat) (bytes : List Byte) : (P.placeBytes offset bytes).wf = true :=
  wf_ofBytes _

theorem read_cellsFrom (k : Nat) (bytes : List Byte) (offset : Nat) :
    (cellsFrom k bytes).read offset = if offset < k then none else bytes[offset - k]? := by
  induction bytes generalizing k with
  | nil => simp [cellsFrom, read]
  | cons b bytes ih =>
    rw [cellsFrom, read, ih]
    by_cases h : k = offset
    · subst h; simp
    · by_cases h' : offset < k
      · simp [h, h', Nat.lt_succ_of_lt h']
      · have : offset - k = (offset - (k + 1)) + 1 := by omega
        rw [this]
        simp [h, h', show ¬ offset < k + 1 by omega]

/-- `MemRead` is indexing into the byte sequence. -/
theorem read_eq {P : Memory} (h : P.wf = true) (offset : Nat) : P.read offset = P.bytes[offset]? := by
  conv_lhs => rw [wf_iff.1 h, ofBytes, read_cellsFrom]
  simp

/-- Every offset inside `len(P)` holds a byte, and no other does. -/
theorem read_isSome {P : Memory} (h : P.wf = true) (offset : Nat) : (P.read offset).isSome = true ↔ offset < P.len := by
  simp [read_eq h]

/-- The bytes from an offset on are a piece of the byte sequence. -/
theorem bytesAt_eq {P : Memory} (h : P.wf = true) (offset n : Nat) :
    P.bytesAt offset n = (P.bytes.drop offset).take n := by
  induction n generalizing offset with
  | zero => simp [bytesAt]
  | succ n ih =>
    rw [bytesAt, read_eq h]
    cases hb : P.bytes[offset]? with
    | none => simp [List.drop_eq_nil_of_le (List.getElem?_eq_none_iff.1 hb)]
    | some b =>
      obtain ⟨hlt, hget⟩ := List.getElem?_eq_some_iff.1 hb
      rw [List.drop_eq_getElem_cons hlt, hget, List.take_succ_cons, ih]

end Sys2Proof.Machine.Memory
end

