-- ==== Sys2Proof/Laws/Step.lean ====
section
/-! SUPPORT. Said once: everything a fetch and a step can do. -/

namespace Sys2Proof.Machine

/-- Inside a canonical program memory, a fetch that is not truncated is a decoding of the bytes from there on. -/
theorem fetch_eq_instr {P : Memory} {a : Nat} {i : Instr} (hP : P.wf = true) :
    fetch P a = .instr i ↔ ∃ rest, decode (P.bytes.drop a) = .ok (i, rest) := by
  unfold fetch
  rw [Memory.read_eq hP]
  cases hb : P.bytes[a]? with
  | none => simp [List.drop_eq_nil_of_le (List.getElem?_eq_none_iff.1 hb), decode]
  | some b0 =>
    obtain ⟨hlt, hget⟩ := List.getElem?_eq_some_iff.1 hb
    have hdrop : P.bytes.drop a = b0 :: P.bytes.drop (a + 1) := by rw [List.drop_eq_getElem_cons hlt, hget]
    have hlen : (P.bytes.drop (a + 1)).length = P.len - (a + 1) := by simp
    rw [hdrop]
    simp only [decode]
    have hpos := Opcode.length_pos (decodeOpcode b0)
    by_cases htr : P.len < a + (decodeOpcode b0).length
    · have := decodeOperands_truncated (op := decodeOpcode b0) (bytes := P.bytes.drop (a + 1))
        (by rw [hlen]; have : a < P.len := by simpa using hlt
            omega)
      simp [htr, this]
    · obtain ⟨n, hn⟩ : ∃ n, (decodeOpcode b0).length = n + 1 := ⟨_, (Nat.sub_add_cancel hpos).symm⟩
      have hat : P.bytesAt a (decodeOpcode b0).length = b0 :: (P.bytes.drop (a + 1)).take n := by
        rw [Memory.bytesAt_eq hP, hdrop, hn, List.take_succ_cons]
      obtain ⟨j, r, hj⟩ := decodeOperands_answers (op := decodeOpcode b0) (bytes := (P.bytes.drop (a + 1)).take n)
        (by rw [List.length_take, hlen, hn]; omega)
      have hj' := decodeOperands_append (more := (P.bytes.drop (a + 1)).drop n) hj
      rw [List.take_append_drop] at hj'
      simp only [htr, if_false, hat, hj, hj', Fetched.instr.injEq, Except.ok.injEq, Prod.mk.injEq]
      exact ⟨fun h => ⟨_, h, rfl⟩, fun ⟨_, h, _⟩ => h⟩

/-- A fetch inside a canonical program memory finds an instruction or is truncated. -/
theorem fetch_cases {P : Memory} {a : Nat} (hP : P.wf = true) (ha : a < P.len) :
    (∃ i, fetch P a = .instr i) ∨ fetch P a = .truncated := by
  by_cases h : ∃ i rest, decode (P.bytes.drop a) = .ok (i, rest)
  · obtain ⟨i, rest, h⟩ := h
    exact .inl ⟨i, (fetch_eq_instr hP).2 ⟨rest, h⟩⟩
  · have hlt : a < P.bytes.length := by simpa using ha
    have hno : ∀ i, fetch P a ≠ .instr i := fun i hi => h ⟨i, (fetch_eq_instr hP).1 hi⟩
    right
    unfold fetch at hno ⊢
    rw [Memory.read_eq hP, List.getElem?_eq_getElem hlt] at hno ⊢
    by_cases htr : P.len < a + (decodeOpcode P.bytes[a]).length
    · simp [htr]
    · exfalso
      have hd : P.bytesAt a (decodeOpcode P.bytes[a]).length =
          P.bytes[a] :: (P.bytes.drop (a + 1)).take ((decodeOpcode P.bytes[a]).length - 1) := by
        have hpos := Opcode.length_pos (decodeOpcode P.bytes[a])
        obtain ⟨n, hn⟩ : ∃ n, (decodeOpcode P.bytes[a]).length = n + 1 := ⟨_, (Nat.sub_add_cancel hpos).symm⟩
        rw [Memory.bytesAt_eq hP, List.drop_eq_getElem_cons hlt, hn, List.take_succ_cons, Nat.add_sub_cancel]
      obtain ⟨j, r, hj⟩ := decodeOperands_answers (op := decodeOpcode P.bytes[a])
        (bytes := (P.bytes.drop (a + 1)).take ((decodeOpcode P.bytes[a]).length - 1))
        (by simp only [List.length_take, List.length_drop, Memory.length_bytes]; omega)
      exact hno j (by simp [htr, hd, decode, hj])

/-- A truncated fetch is one whose operand bytes lie past the end. -/
theorem fetch_eq_truncated {P : Memory} {a : Nat} (h : fetch P a = .truncated) :
    ∃ b0, P.read a = some b0 ∧ P.len < a + (decodeOpcode b0).length := by
  unfold fetch at h
  cases hb : P.read a with
  | none => simp [hb] at h
  | some b0 =>
    refine ⟨b0, rfl, ?_⟩
    by_contra hle
    simp only [hb, hle, if_false] at h
    split at h <;> cases h

variable {s t : State}

theorem fetchOffset_lt (h : s.canFetch) : s.fetchOffset < s.prog.len := by
  obtain ⟨_, h0, h1⟩ := h
  simp only [State.fetchOffset]
  omega

theorem step_of_faulted (h : s.runState = .faulted) : step s = .next (s.report (.fault s.faultKind)) := by
  simp [step, cycle, h]

theorem step_of_idle (h : s.runState = .idle) : step s = stepOnce s := by simp [step, cycle, h]

theorem step_of_running (h : s.runState = .running) : step s = mapNext State.endRound (stepOnce s) := by
  simp [step, cycle, h]

theorem stepOnce_at_end (h : (s.prog.len : Int) ≤ s.pc.toInt) : stepOnce s = .next (s.report .notExecuted) := by
  simp [stepOnce, h]

theorem stepOnce_of_negative (h : s.pc.toInt < 0) : stepOnce s = .next (s.raise .fetchAddress) := by
  have : ¬ (s.prog.len : Int) ≤ s.pc.toInt := by omega
  simp [stepOnce, this, h]

theorem stepOnce_inside (h0 : 0 ≤ s.pc.toInt) (h1 : s.pc.toInt < (s.prog.len : Int)) :
    stepOnce s = fetchExec s s.fetchOffset := by
  simp [stepOnce, Int.not_le.2 h1, Int.not_lt.2 h0]

theorem stepOnce_executes {i : Instr} (hP : s.prog.wf = true) (h : s.executes i) : stepOnce s = exec i s := by
  obtain ⟨⟨_, h0, h1⟩, hd⟩ := h
  rw [stepOnce_inside h0 h1, fetchExec, (fetch_eq_instr hP).2 hd]

/-- The whole of an instruction that executes lies inside the program. -/
theorem executes_fits {i : Instr} (h : s.executes i) : s.pc.toInt + (i.opcode.length : Int) ≤ (s.prog.len : Int) := by
  obtain ⟨hc, rest, hd⟩ := h
  have hlt : s.fetchOffset < s.prog.bytes.length := by simpa using fetchOffset_lt hc
  rw [List.drop_eq_getElem_cons hlt, decode] at hd
  have hlen := congrArg List.length (decodeOperands_ok hd).2
  rw [List.length_append, List.length_drop] at hlen
  have hop := length_operandBytes i
  have hl := Memory.length_bytes s.prog
  obtain ⟨_, h0, _⟩ := hc
  simp only [State.fetchOffset] at hlt hlen
  omega

/-- One instruction at most executes from a state. -/
theorem executes_unique {i j : Instr} (hi : s.executes i) (hj : s.executes j) : i = j := by
  obtain ⟨_, _, hi⟩ := hi
  obtain ⟨_, _, hj⟩ := hj
  cases hi.symm.trans hj
  rfl

/-- The ways `stepOnce` can go in a canonical program memory. -/
theorem stepOnce_cases (hP : s.prog.wf = true) (hf : s.runState ≠ .faulted) :
    ((s.prog.len : Int) ≤ s.pc.toInt ∧ stepOnce s = .next (s.report .notExecuted)) ∨
    (∃ k, stepOnce s = .next (s.raise k)) ∨ (∃ i, s.executes i ∧ stepOnce s = exec i s) := by
  by_cases h1 : (s.prog.len : Int) ≤ s.pc.toInt
  · exact .inl ⟨h1, stepOnce_at_end h1⟩
  by_cases h0 : s.pc.toInt < 0
  · exact .inr (.inl ⟨_, stepOnce_of_negative h0⟩)
  have hin : s.canFetch := ⟨hf, Int.not_lt.1 h0, Int.not_le.1 h1⟩
  obtain ⟨i, hi⟩ | ht := fetch_cases hP (fetchOffset_lt hin)
  · have he : s.executes i := ⟨hin, (fetch_eq_instr hP).1 hi⟩
    exact .inr (.inr ⟨i, he, stepOnce_executes hP he⟩)
  · exact .inr (.inl ⟨.truncatedInstruction, by
      rw [stepOnce_inside hin.2.1 hin.2.2, fetchExec, ht]⟩)

/-- Everything a step can do in a canonical program memory: report the stored fault, report the end of the program,
take a fault, or complete an instruction. -/
theorem step_next (hP : s.prog.wf = true) (h : step s = .next t) :
    (s.runState = .faulted ∧ t = s.report (.fault s.faultKind)) ∨
    (s.runState ≠ .faulted ∧ (s.prog.len : Int) ≤ s.pc.toInt ∧ t = { s.report .notExecuted with runState := .idle }) ∨
    (s.runState ≠ .faulted ∧ ∃ k, t = s.raise k) ∨
    (s.runState ≠ .faulted ∧ ∃ i u, s.executes i ∧ exec i s = .next u ∧ Retired i s u ∧
      ((s.runState = .idle ∧ t = u) ∨ (s.runState = .running ∧ t = u.endRound))) := by
  cases hr : s.runState with
  | faulted =>
    rw [step_of_faulted hr] at h
    exact .inl ⟨rfl, by simpa [eq_comm] using h⟩
  | idle =>
    have hf : s.runState ≠ .faulted := by simp [hr]
    rw [step_of_idle hr] at h
    obtain ⟨hl, he⟩ | ⟨k, he⟩ | ⟨i, hi, he⟩ := stepOnce_cases hP hf
    · rw [he] at h; cases h
      refine .inr (.inl ⟨by simp, hl, ?_⟩)
      rw [← hr]; rfl
    · rw [he] at h; cases h
      exact .inr (.inr (.inl ⟨by simp, k, rfl⟩))
    · rw [he] at h
      obtain hret | ⟨k, hk⟩ := exec_next h
      · exact .inr (.inr (.inr ⟨by simp, i, t, hi, h, hret, .inl ⟨rfl, rfl⟩⟩))
      · exact .inr (.inr (.inl ⟨by simp, k, hk⟩))
  | running =>
    have hf : s.runState ≠ .faulted := by simp [hr]
    rw [step_of_running hr] at h
    obtain ⟨hl, he⟩ | ⟨k, he⟩ | ⟨i, hi, he⟩ := stepOnce_cases hP hf
    · rw [he] at h; cases h
      exact .inr (.inl ⟨by simp, hl, rfl⟩)
    · rw [he] at h; cases h
      exact .inr (.inr (.inl ⟨by simp, k, rfl⟩))
    · rw [he] at h
      obtain ⟨u, hu, rfl⟩ := mapNext_eq_next h
      obtain hret | ⟨k, rfl⟩ := exec_next hu
      · exact .inr (.inr (.inr ⟨by simp, i, u, hi, hu, hret, .inr ⟨rfl, rfl⟩⟩))
      · exact .inr (.inr (.inl ⟨by simp, k, by simp⟩))

end Sys2Proof.Machine
end

