-- ==== Sys2Proof/Laws/Host.lean ====
section
/-! SUPPORT. One round of RUN's loop, by the result of its step, and the STEP command. -/

namespace Sys2Proof.Machine

variable {s t : State} {fuel : Nat}

theorem runLoop_continues (h : step s = .next t) (hr : t.result = some (.executed true)) :
    runLoop (fuel + 1) s = runLoop fuel t := by simp [runLoop, h, hr]

theorem runLoop_halts (h : step s = .next t)
    (hr : t.result = some (.executed false) ∨ t.result = some .notExecuted) :
    runLoop (fuel + 1) s = (t, .halted) := by
  rcases hr with hr | hr <;> simp [runLoop, h, hr]

theorem runLoop_faults {k : Byte} (h : step s = .next t) (hr : t.result = some (.fault k)) :
    runLoop (fuel + 1) s = (t, .faulted k) := by simp [runLoop, h, hr]

theorem hostRun_of_idle (h : s.runState = .idle) :
    hostRun fuel s = runLoop fuel { s with runState := .running } := by simp [hostRun, h]

theorem hostStep_of_next {r : StepResult} (hi : s.runState ≠ .running) (h : step s = .next t)
    (hr : t.result = some r) : hostStep s = (t, .stepped r) := by
  simp [hostStep, hi, h, hr]

end Sys2Proof.Machine
end

