-- ==== Sys2Proof/Laws/PerInstr.lean ====
section
/-! SUPPORT. Families of lemmas with one member per instruction. -/

namespace Sys2Proof.Laws.EncodedForm

/-- The encoding is as long as the opcode's `Len` (spec/30_encoding.md R60), and its first byte alone tells the
opcode (R61). -/
def Statement (i : Instr) : Prop :=
  (encode i).length = i.opcode.length ∧ (encode i).head?.map decodeOpcode = some i.opcode

/-- The shared proof. -/
theorem any (i : Instr) : Statement i := ⟨length_operandBytes i, by simp [encode]⟩

theorem load (dst : Byte) (imm16 : Half) : Statement (.load dst imm16) := any _
theorem add (src1 src2 dst : Byte) : Statement (.add src1 src2 dst) := any _
theorem sub (src1 src2 dst : Byte) : Statement (.sub src1 src2 dst) := any _
theorem mul (src1 src2 dst : Byte) : Statement (.mul src1 src2 dst) := any _
theorem div (src1 src2 dst : Byte) : Statement (.div src1 src2 dst) := any _
theorem hlt : Statement .hlt := any _
theorem jmp (r : Byte) : Statement (.jmp r) := any _
theorem jmpf (r : Byte) : Statement (.jmpf r) := any _
theorem eq (src1 src2 rsv : Byte) : Statement (.eq src1 src2 rsv) := any _
theorem neq (src1 src2 rsv : Byte) : Statement (.neq src1 src2 rsv) := any _
theorem gte (src1 src2 rsv : Byte) : Statement (.gte src1 src2 rsv) := any _
theorem lte (src1 src2 rsv : Byte) : Statement (.lte src1 src2 rsv) := any _
theorem lt (src1 src2 rsv : Byte) : Statement (.lt src1 src2 rsv) := any _
theorem gt (src1 src2 rsv : Byte) : Statement (.gt src1 src2 rsv) := any _
theorem jmpe (r : Byte) : Statement (.jmpe r) := any _
theorem illegal : Statement .illegal := any _

end Sys2Proof.Laws.EncodedForm
end

