-- ==== Sys2Proof/Tests/Slice0.lean ====
section
/-! SUPPORT. The model's own tests. Expected results are those of spec/95_test_vectors.md (W<n> and sections 2.1 to
2.7) or are worked out by hand from the rule named; and for every obligation with hypotheses a witness that they can
be met. -/

namespace Sys2Proof.Tests
open Sys2Proof.Machine

/-- The next state of an outcome. -/
def nextOf : Out → Option State
  | .next t => some t
  | .fault _ => none
  | .refused _ => none

/-- Power-on with a program. -/
def booted (bytes : List Byte) : State := { State.reset with prog := Memory.ofBytes bytes }

/-- Power-on with `x[1]` and `x[2]` set. -/
def pair (a b : Int) : State := (State.reset.setReg 1 (BitVec.ofInt 32 a)).setReg 2 (BitVec.ofInt 32 b)

/-- `x[3]` after, as a signed number. -/
def x3 (o : Out) : Option Int := (nextOf o).map fun t => (t.x 3).toInt

/-- The flag after. -/
def flag (o : Out) : Option Bool := (nextOf o).map fun t => t.equalFlag

/-- The pc after, as a signed number. -/
def pcOf (o : Out) : Option Int := (nextOf o).map fun t => t.pc.toInt

/-- The result of a step. -/
def resultOf (o : Out) : Option StepResult := (nextOf o).bind fun t => t.result

/-! WellFormed: an ill-formed term for each check. -/

theorem test_wf_refuses_bad_dst : [Instr.load 32 0, .add 0 0 32, .sub 0 0 255, .mul 0 0 32, .div 0 0 32].all
    (fun i => !i.wellFormed) = true := by decide

theorem test_wf_refuses_bad_src1 : [Instr.add 32 0 0, .sub 32 0 0, .mul 32 0 0, .div 32 0 0, .eq 32 0 0, .neq 32 0 0,
    .gte 32 0 0, .lte 32 0 0, .lt 32 0 0, .gt 32 0 0].all (fun i => !i.wellFormed) = true := by decide

theorem test_wf_refuses_bad_src2 : [Instr.add 0 32 0, .sub 0 32 0, .mul 0 32 0, .div 0 32 0, .eq 0 32 0, .neq 0 32 0,
    .gte 0 32 0, .lte 0 32 0, .lt 0 32 0, .gt 0 32 0].all (fun i => !i.wellFormed) = true := by decide

theorem test_wf_refuses_bad_r_and_illegal :
    [Instr.jmp 32, .jmpf 32, .jmpe 255, .illegal].all (fun i => !i.wellFormed) = true := by decide

theorem test_wf_accepts_any_rsv_and_imm : [Instr.eq 31 31 255, .gt 0 0 40, .load 31 0xFFFF, .hlt].all
    (fun i => i.wellFormed) = true := by decide

/-! Decoding: one word per constructor, written out bit by bit from R62 and R65. -/

theorem test_decode_load : decode [0b00000000, 0b00000111, 0b00000001, 0b11110100] = .ok (.load 7 500, []) := by decide
theorem test_decode_add : decode [0b00000001, 0b00000001, 0b00000010, 0b00000011] = .ok (.add 1 2 3, []) := by decide
theorem test_decode_sub : decode [0b00000010, 0b00000001, 0b00000010, 0b00000011] = .ok (.sub 1 2 3, []) := by decide
theorem test_decode_mul : decode [0b00000011, 0b00000001, 0b00000010, 0b00000011] = .ok (.mul 1 2 3, []) := by decide
theorem test_decode_div : decode [0b00000100, 0b00000001, 0b00000010, 0b00000011] = .ok (.div 1 2 3, []) := by decide
theorem test_decode_hlt : decode [0b00000101, 0b11111111] = .ok (.hlt, [0b11111111]) := by decide
theorem test_decode_jmp : decode [0b00000110, 0b00011111] = .ok (.jmp 31, []) := by decide
theorem test_decode_jmpf : decode [0b00000111, 0b00000100] = .ok (.jmpf 4, []) := by decide
theorem test_decode_eq : decode [0b00001000, 0b00000001, 0b00000010, 0b11111111] = .ok (.eq 1 2 255, []) := by decide
theorem test_decode_neq : decode [0b00001001, 0b00000001, 0b00000010, 0b00000000] = .ok (.neq 1 2 0, []) := by decide
theorem test_decode_gte : decode [0b00001010, 0b00000111, 0b00001000, 0b00001001] = .ok (.gte 7 8 9, []) := by decide
theorem test_decode_lte : decode [0b00001011, 0b00000001, 0b00000101, 0b00000000] = .ok (.lte 1 5 0, []) := by decide
theorem test_decode_lt : decode [0b00001100, 0b00000001, 0b00000010, 0b00000000] = .ok (.lt 1 2 0, []) := by decide
theorem test_decode_gt : decode [0b00001101, 0b00000001, 0b00000010, 0b00000000] = .ok (.gt 1 2 0, []) := by decide
theorem test_decode_jmpe : decode [0b00001110, 0b00000100] = .ok (.jmpe 4, []) := by decide
theorem test_decode_illegal : decode [0b00001111] = .ok (.illegal, []) ∧ decode [0b00010000, 1] = .ok (.illegal, [1]) := by
  decide

/-- Too few bytes are refused by name. -/
theorem test_decode_truncated : decode [0x01, 0x01, 0x02] = .error (.truncated .add) ∧
    decode [0x06] = .error (.truncated .jmp) ∧ decode [] = .error .noBytes := by decide

/-- spec/opcode_table.json: a 32-bit, a 16-bit and an 8-bit row. -/
theorem test_table_words : decodeTableWord 32 0x0A070809 = some (.gte 7 8 9) ∧
    decodeTableWord 16 0x0E04 = some (.jmpe 4) ∧ decodeTableWord 8 0x05 = some .hlt := by decide

/-- A table word runs as the first instruction after reset. -/
theorem test_fetch_word_runs : step (State.reset.withFetchWord 32 0x000001F4) =
    exec (.load 0 500) (State.reset.withFetchWord 32 0x000001F4) := by rfl

/-! Section 2.2 to 2.6: one step each. -/

/-- W1: `x[0] = 500`, all other registers 0, `pc = 4`. -/
theorem test_load_500 : (nextOf (step (booted [0x00, 0x00, 0x01, 0xF4]))).map
    (fun t => decide (t.regs = (Vector.replicate 32 0).set 0 500 ∧ t.pc = 4 ∧ t.result = some (.executed true))) =
    some true := by decide

theorem test_load_sign_extends : x3 (exec (.load 3 0x8000) State.reset) = some (-32768) := by decide

theorem test_add_wraps : x3 (exec (.add 1 2 3) (pair 2147483647 1)) = some (-2147483648) := by decide

/-- `add $1 $1 $1` with `x[1] = 7` gives 14. -/
theorem test_add_same_register : (nextOf (exec (.add 1 1 1) (pair 7 0))).map (fun t => t.x 1) = some 14 := by decide

theorem test_sub_order : x3 (exec (.sub 1 2 3) (pair 3 5)) = some (-2) := by decide

theorem test_sub_wraps : x3 (exec (.sub 1 2 3) (pair (-2147483648) 1)) = some 2147483647 := by decide

theorem test_mul_signs : x3 (exec (.mul 1 2 3) (pair (-3) 4)) = some (-12) := by decide

theorem test_mul_wraps : x3 (exec (.mul 1 2 3) (pair 46341 46341)) = some (-2147479015) := by decide

/-- R110: -7 / 2 is -3, remainder pattern 0xFFFFFFFF. -/
theorem test_div_negative : (nextOf (exec (.div 1 2 3) (pair (-7) 2))).map
    (fun t => ((t.x 3).toInt, t.remainder)) = some (-3, 0xFFFFFFFF) := by decide

/-- Zero divisor 3, -2^31 / -1 4, and a bad destination first: 2. -/
theorem test_div_faults : [exec (.div 1 2 3) (pair 5 0), exec (.div 1 2 3) (pair (-2147483648) (-1)),
    exec (.div 1 2 40) (pair 5 0)].map resultOf = [some (.fault 3), some (.fault 4), some (.fault 2)] := by decide

theorem test_eq : flag (exec (.eq 1 2 255) (pair 5 5)) = some true := by decide

/-- The row `-1, 1` of section 2.5 in the order eq, neq, gte, lte, lt, gt. -/
theorem test_comparisons_signed : [exec (.eq 1 2 0) (pair (-1) 1), exec (.neq 1 2 0) (pair (-1) 1),
    exec (.gte 1 2 0) (pair (-1) 1), exec (.lte 1 2 0) (pair (-1) 1), exec (.lt 1 2 0) (pair (-1) 1),
    exec (.gt 1 2 0) (pair (-1) 1)].map flag =
    [some false, some true, some false, some true, some true, some false] := by decide

/-- The row `5, 3`. -/
theorem test_comparisons_greater : [exec (.eq 1 2 0) (pair 5 3), exec (.neq 1 2 0) (pair 5 3),
    exec (.gte 1 2 0) (pair 5 3), exec (.lte 1 2 0) (pair 5 3), exec (.lt 1 2 0) (pair 5 3),
    exec (.gt 1 2 0) (pair 5 3)].map flag =
    [some false, some true, some true, some false, some false, some true] := by decide

theorem test_jmp_negative : pcOf (exec (.jmp 1) (pair (-1) 0)) = some (-1) := by decide

/-- `jmpf $4` at `a = 38` with `x[4] = -16` gives 24. -/
theorem test_jmpf_base : pcOf (exec (.jmpf 1) { pair (-16) 0 with pc := 38 }) = some 24 := by decide

theorem test_jmpe_taken : pcOf (exec (.jmpe 1) { pair 32 0 with equalFlag := true, pc := 28 }) = some 32 := by decide

/-- Not taken: 30; a bad register faults although not taken. -/
theorem test_jmpe_not_taken : pcOf (exec (.jmpe 1) { pair 32 0 with pc := 28 }) = some 30 ∧
    resultOf (exec (.jmpe 40) State.reset) = some (.fault 2) := by decide

/-- W4. -/
theorem test_hlt : pcOf (step (booted [0x05])) = some 1 ∧ resultOf (step (booted [0x05])) = some (.executed false) := by
  decide

/-- W6: `fault_kind = 1`, `fault_pc = 0`, `pc = 0`, FAULTED. -/
theorem test_illegal : (nextOf (step (booted [0x0F, 0, 0, 1]))).map
    (fun t => (t.faultKind, t.faultPc, t.pc, t.runState)) = some (1, 0, 0, .faulted) := by decide

/-! Section 2.1: the step at the edges. -/

theorem test_truncated : resultOf (step (booted [0x01, 0x01, 0x02])) = some (.fault 6) ∧
    resultOf (step (booted [0x06])) = some (.fault 6) := by decide

theorem test_not_executed : resultOf (step State.reset) = some .notExecuted := by decide

/-- `pc = -1`: code 5, `fault_pc = -1`; a second step reports 5 again. -/
theorem test_negative_pc : (nextOf (step { booted [0x05] with pc := -1 })).map
    (fun t => (t.faultPc, t.result, resultOf (step t))) = some (-1, some (.fault 5), some (.fault 5)) := by decide

/-- Program 8, step 4: inside an earlier instruction the bytes `06 01` decode afresh as `jmp $1`. -/
theorem test_jump_into_instruction : pcOf (step { booted [0x00, 0x01, 0x06, 0x01] with
    pc := 2, regs := (Vector.replicate 32 0).set 1 1537 }) = some 1537 := by decide

/-! The host interface and the toolchain (section 2.7). -/

/-- Program 5's first batch, shortened to `hlt`: RUN returns HALTED, IDLE, `pc = 1`. -/
theorem test_run_halts : (hostRun 3 (booted [0x05])).2 = .halted ∧ (hostRun 3 (booted [0x05])).1.runState = .idle ∧
    (hostRun 3 (booted [0x05])).1.pc = 1 := by decide

theorem test_assemble_spacing : assembleLine "LOAD\t$0  #500".toList = .ok ([0x00, 0x00, 0x01, 0xF4], []) ∧
    assembleLine "load$0#500".toList = .ok ([0x00, 0x00, 0x01, 0xF4], []) := by decide

theorem test_assemble_no_arity_check : assembleLine "hlt $1 $2".toList = .ok ([0x05, 0x01, 0x02], []) ∧
    assembleLine "load $0".toList = .ok ([0x00, 0x00], []) ∧
    assembleLine "lod $0 #1".toList = .ok ([0x0F, 0x00, 0x00, 0x01], []) := by decide

theorem test_assemble_lexical : ["add1 $1", "load $0 #-5", "load $256 #1", "load $0 #2147483648", "load $0, #1", "5"].map
    (fun l => assembleLine l.toList) = List.replicate 6 (.error .lexical) := by decide

theorem test_assemble_arity_and_encoding : ["   ", "a b c d e", "hlt hlt", "$1 add"].map
    (fun l => assembleLine l.toList) = [.error .arity, .error .arity, .error .encoding, .error .encoding] := by decide

/-- R80: a line break ends the instruction's tokens. -/
theorem test_assemble_line_break : assembleLine "hlt\n\t jmp $1".toList = .ok ([0x05], "jmp $1".toList) := by decide

/-! Witnesses: for each obligation with hypotheses, a state and operands that meet them, clause by clause. -/

theorem witness_DecodedBytesAreTheEncoding : ∃ bytes i rest, decode bytes = .ok (i, rest) ∧ i ≠ .illegal :=
  ⟨[0x05, 0x01], .hlt, [0x01], by decide⟩

theorem witness_OpcodeByteMapIsTotal : 0x0F ≤ (0x0F : Byte).toNat ∧ 0x0F ≤ (0xFF : Byte).toNat := by decide

/-- The two sides of every check of a register field: 31 and 32. Used by LoadWritesSignExtendedImmediate,
AddSubMulWriteWrappedResult, DivWritesQuotientAndRemainder, ComparisonsWriteSignedRelation, JmpSetsAbsoluteTarget and
JmpfSetsRelativeTarget. -/
theorem witness_register_fields : (31 : Byte).toNat < 32 ∧ 32 ≤ (32 : Byte).toNat ∧ 32 ≤ (255 : Byte).toNat := by decide

/-- DivWritesQuotientAndRemainder: an ordinary division, a zero divisor, and -2^31 / -1; and the two divisions next to
the last, which are ordinary. -/
theorem witness_DivWritesQuotientAndRemainder :
    ((pair 10 3).x 2).toInt ≠ 0 ∧ ((pair 5 0).x 2).toInt = 0 ∧
    ((pair (-2147483648) (-1)).x 1).toInt = -2147483648 ∧ ((pair (-2147483648) (-1)).x 2).toInt = -1 ∧
    ¬ (((pair (-2147483648) 1).x 1).toInt = -2147483648 ∧ ((pair (-2147483648) 1).x 2).toInt = -1) ∧
    ¬ (((pair (-2147483647) (-1)).x 1).toInt = -2147483648 ∧ ((pair (-2147483647) (-1)).x 2).toInt = -1) := by decide

theorem witness_DivisionIdentityHolds : ∃ t, exec (.div 1 2 3) (pair (-7) 2) = .next t ∧
    t.result = some (.executed true) := ⟨_, rfl, rfl⟩

theorem witness_WrappedArithmeticIsSignAgnostic : ∃ t u v, exec (.add 1 2 31) (pair (-1) (-1)) = .next t ∧
    exec (.sub 1 2 31) (pair 0 (-2147483648)) = .next u ∧ exec (.mul 1 2 31) (pair 65536 65536) = .next v :=
  ⟨_, _, _, rfl, rfl, rfl⟩

theorem witness_LoadedConstantsAreSixteenBit : ∃ t u, exec (.load 31 0x8000) State.reset = .next t ∧
    exec (.load 31 0x7FFF) State.reset = .next u := ⟨_, _, rfl, rfl⟩

theorem witness_JmpeJumpsWhenFlagIsTrue : { State.reset with equalFlag := true }.equalFlag = true ∧
    State.reset.equalFlag = false := by decide

theorem witness_BadRegisterFieldTakesAddressingFault : Instr.jmp 32 ≠ .illegal ∧ (Instr.jmp 32).wellFormed = false ∧
    (Instr.jmp 31).wellFormed = true := by decide

theorem witness_RegisterWritersFrame : (destination (.div 1 2 3)).isSome = true ∧
    (∃ t, exec (.div 1 2 3) (pair 10 3) = .next t) ∧ (∃ t, exec (.div 1 2 3) (pair 10 0) = .next t) :=
  ⟨rfl, ⟨_, rfl⟩, ⟨_, rfl⟩⟩

theorem witness_ComparisonsFrame : isComparison (.gt 1 2 0) = true ∧ (∃ t, exec (.gt 1 2 0) (pair 5 3) = .next t) ∧
    (∃ t, exec (.gt 1 40 0) (pair 5 3) = .next t) := ⟨rfl, ⟨_, rfl⟩, ⟨_, rfl⟩⟩

theorem witness_JumpsAndHltFrame : (∃ r, Instr.jmpe 1 = .jmp r ∨ Instr.jmpe 1 = .jmpf r ∨ Instr.jmpe 1 = .jmpe r) ∧
    (∃ t, exec (.jmpe 1) (pair 5 3) = .next t) ∧ (∃ t, exec .hlt (pair 5 3) = .next t) :=
  ⟨⟨1, .inr (.inr rfl)⟩, ⟨_, rfl⟩, ⟨_, rfl⟩⟩

theorem witness_UnreadRegistersDoNotMatter : BitVec.ofNat 8 (3 : Fin 32).val ∉ sources (.add 1 2 3) ∧
    ∃ t, exec (.add 1 2 3) (pair 2 3) = .next t := ⟨by decide, _, rfl⟩

theorem witness_StepRunsTheDecodedInstruction : (booted [0x05]).prog.wf = true ∧ 0 ≤ (booted [0x05]).pc.toInt ∧
    (booted [0x05]).pc.toInt < ((booted [0x05]).prog.len : Int) ∧
    decode ((booted [0x05]).prog.bytes.drop (booted [0x05]).pc.toInt.toNat) = .ok (.hlt, []) ∧
    (∃ t, exec .hlt (booted [0x05]) = .next t) ∧ (booted [0x05]).runState = .idle ∧
    { booted [0x05] with runState := .running }.runState = .running :=
  ⟨by decide, by decide, by decide, by decide, ⟨_, rfl⟩, rfl, rfl⟩

/-- At the boundary: `pc = len(P)`. -/
theorem witness_EndOfProgramIsNotExecuted : State.reset.runState ≠ .faulted ∧
    (State.reset.prog.len : Int) ≤ State.reset.pc.toInt := by decide

theorem witness_NegativePcTakesFetchAddressFault : { State.reset with pc := -1 }.runState ≠ .faulted ∧
    { State.reset with pc := -1 }.pc.toInt < 0 := by decide

theorem witness_IllegalByteTakesDecodeFault : (booted [0x0F]).prog.wf = true ∧ (booted [0x0F]).runState ≠ .faulted ∧
    0 ≤ (booted [0x0F]).pc.toInt ∧ (booted [0x0F]).prog.read (booted [0x0F]).pc.toInt.toNat = some 0x0F ∧
    0x0F ≤ (0x0F : Byte).toNat := by decide

theorem witness_MissingOperandsTakeTruncatedFault : (booted [0x0E]).prog.wf = true ∧
    (booted [0x0E]).runState ≠ .faulted ∧ 0 ≤ (booted [0x0E]).pc.toInt ∧
    (booted [0x0E]).prog.read (booted [0x0E]).pc.toInt.toNat = some 0x0E ∧ (0x0E : Byte).toNat < 0x0F ∧
    (booted [0x0E]).prog.len < (booted [0x0E]).pc.toInt.toNat + (decodeOpcode 0x0E).length := by decide

/-- StepAlwaysAnswers, FaultsArePrecise. -/
theorem witness_FaultsArePrecise : (booted [0x0F]).prog.wf = true ∧ (booted [0x0F]).runState ≠ .faulted ∧
    ∃ t, step (booted [0x0F]) = .next t ∧ t.runState = .faulted := ⟨by decide, by decide, _, rfl, rfl⟩

theorem witness_StepNeverWritesProgram : ∃ t, step (booted [0x05]) = .next t := ⟨_, rfl⟩

theorem witness_OnlyComparisonsChangeTheFlag : (booted [0x08, 1, 2, 0]).prog.wf = true ∧
    ∃ t, step (booted [0x08, 1, 2, 0]) = .next t ∧ t.equalFlag ≠ (booted [0x08, 1, 2, 0]).equalFlag :=
  ⟨by decide, _, rfl, by decide⟩

/-- `div $1 $2 $3` about to execute with `x[1] = 10`, `x[2] = 3`. -/
def dividing : State := { pair 10 3 with prog := Memory.ofBytes [0x04, 1, 2, 3] }

theorem witness_OnlyDivChangesTheRemainder : dividing.prog.wf = true ∧
    ∃ t, step dividing = .next t ∧ t.remainder ≠ dividing.remainder := ⟨by decide, _, rfl, by decide⟩

theorem witness_OnlyHltClearsTheContinueSignal :
    (∃ t, step (booted [0x05]) = .next t ∧ t.result = some (.executed false)) ∧
    (∃ t, step dividing = .next t ∧ t.result = some (.executed true)) := ⟨⟨_, rfl, rfl⟩, ⟨_, rfl, rfl⟩⟩

/-- A jump byte and its register, `$0`, at offset 0. -/
theorem executes_jump (code : Byte) (i : Instr) (h : decode [code, 0x00] = .ok (i, [])) :
    (booted [code, 0x00]).executes i := ⟨⟨(fun h => nomatch h), (by decide : 0 ≤ (0 : PcVal).toInt),
    (by decide : (0 : PcVal).toInt < ((2 : Nat) : Int))⟩, [], h⟩

theorem witness_PcArithmeticNeverWraps :
    ((booted [0x06, 0]).executes (.jmp 0) ∧ ∃ t, step (booted [0x06, 0]) = .next t ∧ t.runState ≠ .faulted) ∧
    ((booted [0x07, 0]).executes (.jmpf 0) ∧ ∃ t, step (booted [0x07, 0]) = .next t ∧ t.runState ≠ .faulted) ∧
    ((booted [0x0E, 0]).executes (.jmpe 0) ∧ ∃ t, step (booted [0x0E, 0]) = .next t ∧ t.runState ≠ .faulted) ∧
    (dividing.executes (.div 1 2 3) ∧ ∃ t, step dividing = .next t ∧ t.runState ≠ .faulted) ∧
    (booted [0x06, 0]).prog.wf = true ∧ (booted [0x06, 0]).prog.len ≤ 2 ^ 32 :=
  ⟨⟨executes_jump _ _ (by decide), _, rfl, by decide⟩, ⟨executes_jump _ _ (by decide), _, rfl, by decide⟩,
   ⟨executes_jump _ _ (by decide), _, rfl, by decide⟩, ⟨⟨by decide, [], by decide⟩, _, rfl, by decide⟩,
   by decide, by decide⟩

/-- StepKeepsInvariant, HostCommandsKeepInvariant: a booted machine with a one-byte program meets the invariant. -/
theorem witness_StepKeepsInvariant : (booted [0x05]).Inv ∧ ∃ t, step (booted [0x05]) = .next t := by
  refine ⟨⟨by decide, Config.progMax_pos, ⟨by decide, ?_⟩, fun h => absurd h (by decide), fun _ => ⟨rfl, rfl⟩⟩, _, rfl⟩
  have h0 : (booted [0x05]).pc.toInt = 0 := by decide
  rw [h0]; omega

theorem witness_ReachableStatesAreSafe : Reachable State.reset := .powerOn

/-- FaultStaysUntilReset, FaultedBlockReportsItsFault. -/
theorem witness_FaultStaysUntilReset : ((booted [0x0F]).raise .decode).runState = .faulted ∧
    Command.reset ∉ [Command.step, .run, .clear, .append [0x05]] := by decide

/-- SingleStepStaysIdleUnlessFault, RunReplyAgreesWithRunState, RunIsRepeatedSingleSteps. -/
theorem witness_RunIsRepeatedSingleSteps : (booted [0x05]).prog.wf = true ∧ (booted [0x05]).runState = .idle ∧
    (hostRun 1 (booted [0x05])).2 ≠ .stillRunning := by decide

/-- `jmpf $0` about to execute with `x[0] = -2`. -/
def hanging : State := { State.reset.setReg 0 (-2) with prog := Memory.ofBytes [0x07, 0x00] }

theorem witness_JmpfOntoItselfNeverEnds : hanging.prog.wf = true ∧ hanging.runState = .idle ∧
    hanging.executes (.jmpf 0) ∧ (hanging.x 0).toInt = -2 := ⟨by decide, by decide, ⟨by decide, [], by decide⟩, by decide⟩

theorem witness_RunOnEmptyProgramHaltsAtOnce : State.reset.runState = .idle ∧ State.reset.prog = [] ∧
    0 ≤ State.reset.pc.toInt := by decide

/-- Both clauses: one byte fits into an empty program, `PROG_MAX + 1` bytes do not. -/
theorem witness_AppendAddsBytesAtTheEnd : State.reset.prog.wf = true ∧ State.reset.runState ≠ .running ∧
    State.reset.prog.len + [(0x05 : Byte)].length ≤ Config.progMax ∧
    Config.progMax < State.reset.prog.len + (List.replicate (Config.progMax + 1) (0x05 : Byte)).length := by
  refine ⟨by decide, by decide, Config.progMax_pos, ?_⟩
  rw [List.length_replicate]; omega

theorem witness_AppendedInstructionRunsNext : State.reset.prog.wf = true ∧ State.reset.runState = .idle ∧
    State.reset.pc.toInt = (State.reset.prog.len : Int) ∧
    State.reset.prog.len + (encode .hlt).length ≤ Config.progMax ∧
    ∃ t, exec .hlt { State.reset with prog := State.reset.prog.append (encode .hlt) } = .next t :=
  ⟨by decide, by decide, by decide, Config.progMax_pos, _, rfl⟩

/-- ReadReturnsWholeState and ClearEmptiesTheProgram; CommandsDuringRunAreRefused. -/
theorem witness_host_commands : State.reset.runState ≠ .running ∧
    { State.reset with runState := .running }.runState = .running ∧ Command.read ≠ .reset := by decide

theorem witness_AssembledLineDecodesBack : Instr.load 255 0xFFFF ≠ .illegal := by decide

/-- Both ends of the range: 1 byte and 7 bytes. -/
theorem witness_AssembledLineIsOneToSevenBytes : assembleLine "hlt".toList = .ok ([0x05], []) ∧
    assembleLine "add #1 #2 #3".toList = .ok ([0x01, 0x00, 0x01, 0x00, 0x02, 0x00, 0x03], []) := by decide

theorem witness_UnknownMnemonicAssemblesToIllegal : "lod".toList ≠ [] ∧ "lod".toList.all Char.isAlpha = true ∧
    "lod".toList.map Char.toLower ∉ nameTable.map (fun row => row.1) := by decide

end Sys2Proof.Tests
end

/-! PROOFS. A step in a canonical program memory answers a next state and a result. -/

namespace Sys2Proof.Machine

variable {s t : State}

/-- Phases 1 to 5 of a block that is not FAULTED never reach the model's own fault (spec/20_memory.md R43). -/
theorem stepOnce_answers (hP : s.prog.wf = true) (hf : s.runState ≠ .faulted) : ∃ t, stepOnce s = .next t := by
  obtain ⟨_, he⟩ | ⟨_, he⟩ | ⟨i, _, he⟩ := stepOnce_cases hP hf
  · exact ⟨_, he⟩
  · exact ⟨_, he⟩
  · rw [he]; exact exec_answers i s

theorem step_answers (hP : s.prog.wf = true) : ∃ t, step s = .next t := by
  cases hr : s.runState with
  | faulted => exact ⟨_, step_of_faulted hr⟩
  | idle => rw [step_of_idle hr]; exact stepOnce_answers hP (by simp [hr])
  | running =>
    obtain ⟨u, hu⟩ := stepOnce_answers hP (by simp [hr])
    exact ⟨u.endRound, by rw [step_of_running hr, hu, mapNext_next]⟩

/-- Every step writes the result port (spec/40_execution.md R90). -/
theorem step_result (hP : s.prog.wf = true) (h : step s = .next t) : ∃ r, t.result = some r := by
  obtain ⟨_, rfl⟩ | ⟨_, _, rfl⟩ | ⟨_, _, rfl⟩ | ⟨_, _, u, _, _, hret, ⟨_, rfl⟩ | ⟨_, rfl⟩⟩ := step_next hP h
  · exact ⟨_, State.report_result ..⟩
  · exact ⟨_, rfl⟩
  · exact ⟨_, State.raise_result ..⟩
  · exact ⟨_, hret.result⟩
  · exact ⟨_, u.endRound_result.trans hret.result⟩

/-- Settles O32: the step's cases in a canonical program memory all answer, and each writes the result port. -/
theorem stepAlwaysAnswers : Obligations.StepAlwaysAnswers := by
  intro s hP
  obtain ⟨t, ht⟩ := step_answers hP
  obtain ⟨r, hr⟩ := step_result hP ht
  exact ⟨t, r, ht, hr⟩

end Sys2Proof.Machine

/-! PROOFS. The invariant of Safety.lean: it holds at power-on, and every step, every host command and every run keeps it. -/

namespace Sys2Proof.Machine

/-! Each way to a next pc stays in the invariant's range. -/

theorem pcInRange_absPc (v : Word) : pcInRange (absPc v) := by
  obtain ⟨hlo, hhi⟩ := word_range v
  rw [pcInRange, toInt_absPc]
  omega

theorem pcInRange_seqPc {a : PcVal} {n : Nat} (h0 : 0 ≤ a.toInt) (h : a.toInt + n ≤ Config.progMax) :
    pcInRange (seqPc a n) := by
  have hmax := Config.progMax_le
  rw [pcInRange, toInt_seqPc h0 (by omega)]
  omega

theorem pcInRange_relPc {a : PcVal} (v : Word) (h0 : 0 ≤ a.toInt) (h : a.toInt < Config.progMax) :
    pcInRange (relPc a v) := by
  have hmax := Config.progMax_le
  obtain ⟨hlo, hhi⟩ := word_range v
  rw [pcInRange, toInt_relPc v h0 (by omega)]
  omega

/-! What the parts of a step do to the invariant. -/

variable {s t : State}

theorem State.Inv.report (hs : s.Inv) (r : StepResult) : (s.report r).Inv :=
  ⟨hs.progWf, hs.progFits, hs.pcRange, hs.faulted, hs.notFaulted⟩

/-- A fault entry records a code of R140 and the pc it stopped at (R143). -/
theorem State.Inv.raise (hs : s.Inv) (k : FaultKind) : (s.raise k).Inv where
  progWf := hs.progWf
  progFits := hs.progFits
  pcRange := hs.pcRange
  faulted _ := and_assoc.1 ⟨k.code_range, rfl⟩
  notFaulted h := absurd rfl h

/-- A block moves between IDLE and RUNNING with its fault registers at rest. -/
theorem State.Inv.withRunState (hs : s.Inv) (hf : s.runState ≠ .faulted) {r : RunState} (hr : r ≠ .faulted) :
    { s with runState := r }.Inv where
  progWf := hs.progWf
  progFits := hs.progFits
  pcRange := hs.pcRange
  faulted h := absurd h hr
  notFaulted _ := hs.notFaulted hf

theorem State.Inv.endRound (hs : s.Inv) (hf : s.runState ≠ .faulted) : s.endRound.Inv := by
  unfold State.endRound
  split
  · exact hs.withRunState hf (by decide)
  · exact hs.withRunState hf (by decide)
  all_goals exact hs

/-- A program memory that is canonical and fits replaces another. -/
theorem State.Inv.withProg (hs : s.Inv) {P : Memory} (hP : P.wf = true) (hfit : P.len ≤ Config.progMax) :
    { s with prog := P }.Inv :=
  ⟨hP, hfit, hs.pcRange, hs.faulted, hs.notFaulted⟩

theorem Retired.pcInRange {i : Instr} (hret : Retired i s t) (hs : s.Inv) (he : s.executes i) : pcInRange t.pc := by
  have hend := executes_fits he
  have hfit := hs.progFits
  obtain ⟨⟨_, h0, h1⟩, _⟩ := he
  obtain hpc | ⟨v, hpc⟩ | ⟨v, hpc⟩ := hret.pc <;> rw [hpc]
  · exact pcInRange_seqPc h0 (by omega)
  · exact pcInRange_absPc v
  · exact pcInRange_relPc v h0 (by omega)

theorem executes_not_faulted {i : Instr} (he : s.executes i) : s.runState ≠ .faulted := he.1.1

theorem Retired.inv {i : Instr} (hret : Retired i s t) (hs : s.Inv) (he : s.executes i) : t.Inv where
  progWf := hret.prog ▸ hs.progWf
  progFits := hret.prog ▸ hs.progFits
  pcRange := hret.pcInRange hs he
  faulted h := absurd (hret.runState ▸ h) (executes_not_faulted he)
  notFaulted _ := by rw [hret.faultKind, hret.faultPc]; exact hs.notFaulted (executes_not_faulted he)

/-- The invariant is kept by every step. -/
theorem step_keeps_inv (hs : s.Inv) (h : step s = .next t) : t.Inv := by
  obtain ⟨_, rfl⟩ | ⟨hf, _, rfl⟩ | ⟨_, k, rfl⟩ | ⟨hf, i, u, he, _, hret, ⟨_, rfl⟩ | ⟨_, rfl⟩⟩ :=
    step_next hs.progWf h
  · exact hs.report _
  · exact (hs.report _).withRunState hf (by decide)
  · exact hs.raise k
  · exact hret.inv hs he
  · exact (hret.inv hs he).endRound (by rw [hret.runState]; exact hf)

/-! The host commands. -/

theorem reset_inv : State.reset.Inv where
  progWf := rfl
  progFits := Nat.zero_le _
  pcRange := by
    have h0 : State.reset.pc.toInt = 0 := by decide
    exact ⟨by omega, by omega⟩
  faulted h := nomatch h
  notFaulted _ := ⟨rfl, rfl⟩

/-- Induction on the fuel: a round either goes on from a state that meets the invariant or ends the run in one. -/
theorem runLoop_keeps_inv (fuel : Nat) (hs : s.Inv) : (runLoop fuel s).1.Inv := by
  induction fuel generalizing s with
  | zero => exact hs
  | succ fuel ih =>
    obtain ⟨t, ht⟩ := step_answers hs.progWf
    obtain ⟨r, hr⟩ := step_result hs.progWf ht
    have hinv := step_keeps_inv hs ht
    cases r with
    | notExecuted => rw [runLoop_halts ht (.inr hr)]; exact hinv
    | fault k => rw [runLoop_faults ht hr]; exact hinv
    | executed cont =>
      cases cont with
      | true => rw [runLoop_continues ht hr]; exact ih hinv
      | false => rw [runLoop_halts ht (.inl hr)]; exact hinv

theorem hostReset_keeps_inv (hs : s.Inv) : (hostReset s).1.Inv := reset_inv.withProg hs.progWf hs.progFits

theorem hostClear_keeps_inv (hs : s.Inv) : (hostClear s).1.Inv := by
  unfold hostClear
  split
  · exact hs
  · exact hs.withProg Memory.wf_nil (Nat.zero_le _)

theorem hostAppend_keeps_inv (bytes : List Byte) (hs : s.Inv) : (hostAppend bytes s).1.Inv := by
  unfold hostAppend
  split
  · exact hs
  · split
    · exact hs
    · next hfit => exact hs.withProg (Memory.wf_append hs.progWf bytes) (by rw [Memory.len_append]; omega)

theorem hostStep_keeps_inv (hs : s.Inv) : (hostStep s).1.Inv := by
  by_cases hrun : s.runState = .running
  · simpa [hostStep, hrun] using hs
  · obtain ⟨t, ht⟩ := step_answers hs.progWf
    obtain ⟨r, hr⟩ := step_result hs.progWf ht
    rw [hostStep_of_next hrun ht hr]
    exact step_keeps_inv hs ht

theorem hostRun_keeps_inv (fuel : Nat) (hs : s.Inv) : (hostRun fuel s).1.Inv := by
  cases hr : s.runState with
  | running | faulted => simpa [hostRun, hr] using hs
  | idle =>
    rw [hostRun_of_idle hr]
    exact runLoop_keeps_inv fuel (hs.withRunState (by simp [hr]) (by decide))

theorem hostRead_state (s : State) : (hostRead s).1 = s := by
  unfold hostRead
  split <;> rfl

/-- The invariant is kept by every host command. -/
theorem command_keeps_inv (fuel : Nat) (c : Command) (hs : s.Inv) : (command fuel c s).1.Inv := by
  cases c with
  | reset => exact hostReset_keeps_inv hs
  | clear => exact hostClear_keeps_inv hs
  | append bytes => exact hostAppend_keeps_inv bytes hs
  | step => exact hostStep_keeps_inv hs
  | run => exact hostRun_keeps_inv fuel hs
  | read => exact (hostRead_state s).symm ▸ hs

theorem Reachable.inv (h : Reachable s) : s.Inv := by
  induction h with
  | powerOn => exact reset_inv
  | command fuel c s _ ih => exact command_keeps_inv fuel c ih
  | round s t _ ht ih => exact step_keeps_inv ih ht

/-- Settles O41: by induction on how the state was reached it meets the invariant, whose program memory is canonical,
and there every step answers. -/
theorem reachableStatesAreSafe : Obligations.ReachableStatesAreSafe :=
  fun _ h => ⟨h.inv, step_answers h.inv.progWf⟩

end Sys2Proof.Machine

/-! PROOFS. The reset state, and the invariant: its base and its step. -/

namespace Sys2Proof.Machine

/-- Settles O39: the step's cases all keep the invariant. -/
theorem stepKeepsInvariant : Obligations.StepKeepsInvariant := fun _ _ => step_keeps_inv

@[simp] theorem State.reset_x (i : Fin 32) : State.reset.x i = 0 := by simp [State.x, State.reset]

/-- Settles O1: the register file is 32 copies of 0, and every other field is written out. -/
theorem resetStateIsAllZero : Obligations.ResetStateIsAllZero := ⟨State.reset_x, rfl, rfl, rfl, rfl, rfl, rfl⟩

/-- Settles O3: the empty program is canonical and fits, the pc is 0, and no fault stands. -/
theorem powerOnStateSatisfiesInvariant : Obligations.PowerOnStateSatisfiesInvariant := reset_inv

end Sys2Proof.Machine

/-! PROOFS. What a register field of 32 or more does (spec/10_state.md R22), instruction by instruction. -/

namespace Sys2Proof.Machine

/-- A retired instruction reports EXECUTED and a fault entry its fault, so no outcome is both. -/
theorem next_retire_ne_raise {s u : State} {pc : PcVal} {cont : Bool} {k : FaultKind} :
    (.next (u.retire pc cont) : Out) ≠ .next (s.raise k) :=
  fun h => by simpa using congrArg State.result (Host.Outcome.next.inj h)

theorem FaultKind.eq_addressing_of_code {k : FaultKind} (h : k.code = FaultKind.addressing.code) : k = .addressing := by
  cases k with
  | addressing => rfl
  | decode | divideByZero | divideOverflow | fetchAddress | truncatedInstruction => exact absurd h (by decide)

/-- The arithmetic faults of a division are not the AddressingFault of its registers (R142). -/
theorem divFault_ne_addressing (A B : Word) : divFault A B ≠ some .addressing := by
  unfold divFault
  split
  · simp
  · split <;> simp

section
variable {s : State} {field : Byte}

/-- A read takes AddressingFault where its field is bad, or where what follows takes it. -/
theorem withSrc_addressing_iff {k : Word → Out} {ok : Bool} (hk : ∀ v, k v = .next (s.raise .addressing) ↔ ok = false) :
    withSrc field s k = .next (s.raise .addressing) ↔ (regFieldOk field && ok) = false := by
  by_cases hlt : field.toNat < 32
  · simp [withSrc_of_lt hlt, hk, regFieldOk, hlt]
  · simp [withSrc_of_ge (Nat.not_lt.1 hlt), regFieldOk, hlt]

/-- The last access of an instruction takes AddressingFault where its field is bad, and nowhere else. -/
theorem withDst_addressing_iff {k : Fin 32 → Out} (hk : ∀ d, k d ≠ .next (s.raise .addressing)) :
    withDst field s k = .next (s.raise .addressing) ↔ regFieldOk field = false := by
  by_cases hlt : field.toNat < 32
  · simp [withDst_of_lt hlt, hk, regFieldOk, hlt]
  · simp [withDst_of_ge (Nat.not_lt.1 hlt), regFieldOk, hlt]

end

section
variable {s : State} {src1 src2 dst : Byte}

theorem arith_addressing_iff {f : Word → Word → Word} : arith f src1 src2 dst s = .next (s.raise .addressing) ↔
    (regFieldOk src1 && regFieldOk src2 && regFieldOk dst) = false := by
  rw [Bool.and_assoc]
  exact withSrc_addressing_iff fun _ => withSrc_addressing_iff fun _ => withDst_addressing_iff fun _ =>
    next_retire_ne_raise

theorem execDiv_addressing_iff : execDiv src1 src2 dst s = .next (s.raise .addressing) ↔
    (regFieldOk src1 && regFieldOk src2 && regFieldOk dst) = false := by
  rw [Bool.and_assoc]
  refine withSrc_addressing_iff fun A => withSrc_addressing_iff fun B => withDst_addressing_iff fun d => ?_
  cases hk : divFault A B with
  | none => exact next_retire_ne_raise
  | some k =>
    intro h
    have hcode := congrArg State.faultKind (Host.Outcome.next.inj h)
    exact divFault_ne_addressing A B (FaultKind.eq_addressing_of_code hcode ▸ hk)

theorem comparison_addressing_iff {rel : Word → Word → Bool} :
    comparison rel src1 src2 s = .next (s.raise .addressing) ↔ (regFieldOk src1 && regFieldOk src2) = false :=
  withSrc_addressing_iff fun _ => withDst_addressing_iff fun _ => next_retire_ne_raise

theorem jump_addressing_iff {target : Word → PcVal} {r : Byte} :
    (withSrc r s fun T => .next (s.retire (target T) true)) = .next (s.raise .addressing) ↔ regFieldOk r = false :=
  withDst_addressing_iff fun _ => next_retire_ne_raise

end

/-- AddressingFault is the fault of exactly the register fields an instruction accesses. -/
theorem exec_addressing_iff {i : Instr} (s : State) (hi : i ≠ .illegal) :
    exec i s = .next (s.raise .addressing) ↔ i.wellFormed = false := by
  cases i with
  | load dst imm16 => exact withDst_addressing_iff fun _ => next_retire_ne_raise
  | hlt => exact iff_of_false next_retire_ne_raise (by decide)
  | illegal => exact absurd rfl hi
  | div src1 src2 dst => exact execDiv_addressing_iff
  | add src1 src2 dst | sub src1 src2 dst | mul src1 src2 dst => exact arith_addressing_iff
  | eq src1 src2 _ | neq src1 src2 _ | gte src1 src2 _ | lte src1 src2 _ | lt src1 src2 _ | gt src1 src2 _ =>
    exact comparison_addressing_iff
  | jmp r | jmpf r => exact jump_addressing_iff
  | jmpe r => exact jump_addressing_iff (target := fun T => if s.equalFlag then absPc T else seqPc s.pc 2)

/-- Settles O22: the registers are checked first, and no later fault is AddressingFault. -/
theorem badRegisterFieldTakesAddressingFault : Obligations.BadRegisterFieldTakesAddressingFault := by
  intro i s hi
  have haddr : exec i s = .next (afterFault s 2) ↔ i.wellFormed = false := exec_addressing_iff s hi
  exact ⟨haddr.2, fun hwf h => by simp [haddr.1 h] at hwf⟩

end Sys2Proof.Machine

/-! PROOFS. Frames: what executing an instruction leaves unchanged, fault or not (spec/10_state.md R24). -/

namespace Sys2Proof.Machine

variable {i : Instr} {s t : State}

/-- What `i`, executed from `s` to `t`, has left unchanged, whether it completed or took a fault. -/
structure Framed (i : Instr) (s t : State) : Prop where
  regs : ∀ j : Fin 32, destination i ≠ some (BitVec.ofNat 8 j.val) → t.x j = s.x j
  equalFlag : isComparison i = false → t.equalFlag = s.equalFlag
  remainder : isDivision i = false → t.remainder = s.remainder
  prog : t.prog = s.prog
  status : (t.runState = s.runState ∧ t.faultKind = s.faultKind ∧ t.faultPc = s.faultPc) ∨ t = afterFault s t.faultKind

theorem Retired.framed (h : Retired i s t) : Framed i s t :=
  ⟨h.regs, h.equalFlag, h.remainder, h.prog, .inl ⟨h.runState, h.faultKind, h.faultPc⟩⟩

theorem raise_framed (i : Instr) (s : State) (k : FaultKind) : Framed i s (s.raise k) :=
  ⟨fun _ _ => rfl, fun _ => rfl, fun _ => rfl, rfl, .inr rfl⟩

theorem exec_framed (h : exec i s = .next t) : Framed i s t := by
  obtain hret | ⟨k, rfl⟩ := exec_next h
  · exact hret.framed
  · exact raise_framed i s k

theorem Framed.read (h : Framed i s t) (a : Nat) : t.prog.read a = s.prog.read a := by rw [h.prog]

theorem Framed.len (h : Framed i s t) : t.prog.len = s.prog.len := by rw [h.prog]

/-- An instruction without a destination changes no register. -/
theorem Framed.regs_of_no_destination (h : Framed i s t) (hd : destination i = none) (j : Fin 32) : t.x j = s.x j :=
  h.regs j (by simp [hd])

theorem isComparison_of_destination (h : (destination i).isSome = true) : isComparison i = false := by
  cases i with
  | eq | neq | gte | lte | lt | gt => cases h
  | _ => rfl

theorem destination_of_isComparison (h : isComparison i = true) : destination i = none := by
  cases i with
  | eq | neq | gte | lte | lt | gt => rfl
  | _ => cases h

theorem isDivision_of_no_destination (h : destination i = none) : isDivision i = false := by
  cases i with
  | div => cases h
  | _ => rfl

/-- Settles O23: an instruction with a destination is no comparison. -/
theorem registerWritersFrame : Obligations.RegisterWritersFrame := by
  intro i s t hd h
  have hfr := exec_framed h
  exact ⟨hfr.regs, hfr.equalFlag (isComparison_of_destination hd), hfr.remainder, hfr.read, hfr.len, hfr.status⟩

/-- Settles O24: a comparison has no destination, so it is no division either. -/
theorem comparisonsFrame : Obligations.ComparisonsFrame := by
  intro i s t hc h
  have hfr := exec_framed h
  have hd := destination_of_isComparison hc
  exact ⟨hfr.regs_of_no_destination hd, hfr.remainder (isDivision_of_no_destination hd), hfr.read, hfr.len, hfr.status⟩

/-- Settles O25: the jumps and `hlt` have no destination and are no comparisons. -/
theorem jumpsAndHltFrame : Obligations.JumpsAndHltFrame := by
  intro i s t hi h
  have hfr := exec_framed h
  have hkind : destination i = none ∧ isComparison i = false := by
    obtain rfl | ⟨r, rfl | rfl | rfl⟩ := hi <;> exact ⟨rfl, rfl⟩
  obtain ⟨hd, hc⟩ := hkind
  exact ⟨hfr.regs_of_no_destination hd, hfr.remainder (isDivision_of_no_destination hd), hfr.equalFlag hc, hfr.read,
    hfr.len, hfr.status⟩

end Sys2Proof.Machine

/-! PROOFS. Two runs that differ in one register the instruction does not read (spec/10_state.md R24). -/

namespace Sys2Proof.Machine

variable {j : Fin 32} {s s' : State}

/-- The two states are the same but for, at most, register `j`. -/
structure AgreeExcept (j : Fin 32) (s s' : State) : Prop where
  regs : ∀ k : Fin 32, k ≠ j → s'.x k = s.x k
  pc : s'.pc = s.pc
  equalFlag : s'.equalFlag = s.equalFlag
  remainder : s'.remainder = s.remainder
  runState : s'.runState = s.runState
  faultKind : s'.faultKind = s.faultKind
  faultPc : s'.faultPc = s.faultPc
  prog : s'.prog = s.prog
  result : s'.result = s.result

namespace AgreeExcept

theorem of_setReg (j : Fin 32) (s : State) (v : Word) : AgreeExcept j s (s.setReg j v) :=
  ⟨fun k hk => by rw [State.x_setReg, if_neg hk.symm], rfl, rfl, rfl, rfl, rfl, rfl, rfl, rfl⟩

variable (h : AgreeExcept j s s')
include h

theorem setReg (d : Fin 32) (v : Word) : AgreeExcept j (s.setReg d v) (s'.setReg d v) :=
  { h with regs := fun k hk => by simp only [State.x_setReg, h.regs k hk] }

theorem setEqualFlag (f : Bool) : AgreeExcept j (s.setEqualFlag f) (s'.setEqualFlag f) := { h with equalFlag := rfl }

theorem setRemainder (v : Word) : AgreeExcept j (s.setRemainder v) (s'.setRemainder v) := { h with remainder := rfl }

theorem retire (pc : PcVal) (cont : Bool) : AgreeExcept j (s.retire pc cont) (s'.retire pc cont) :=
  { h with pc := rfl, result := rfl }

theorem raise (k : FaultKind) : AgreeExcept j (s.raise k) (s'.raise k) :=
  { h with runState := rfl, faultKind := rfl, faultPc := h.pc, result := rfl }

end AgreeExcept

/-- Both outcomes are next states, the same but for register `j`. -/
def OutAgree (j : Fin 32) (o o' : Out) : Prop := ∃ t t', o = .next t ∧ o' = .next t' ∧ AgreeExcept j t t'

theorem AgreeExcept.next (h : AgreeExcept j s s') : OutAgree j (.next s) (.next s') := ⟨s, s', rfl, rfl, h⟩

section
variable {field : Byte} (h : AgreeExcept j s s')
include h

/-- The write port looks at no register's value. -/
theorem withDst_agree {k k' : Fin 32 → Out} (hk : ∀ d, OutAgree j (k d) (k' d)) :
    OutAgree j (withDst field s k) (withDst field s' k') := by
  by_cases hlt : field.toNat < 32
  · rw [withDst_of_lt hlt, withDst_of_lt hlt]; exact hk _
  · have hge := Nat.not_lt.1 hlt
    rw [withDst_of_ge hge, withDst_of_ge hge]; exact (h.raise _).next

/-- The read port gives the same value in both states where `j` is not among the fields that are read. -/
theorem withSrc_agree {k k' : Word → Out} {fields : List Byte} (hj : BitVec.ofNat 8 j.val ∉ fields)
    (hf : field ∈ fields) (hk : ∀ v, OutAgree j (k v) (k' v)) :
    OutAgree j (withSrc field s k) (withSrc field s' k') := by
  by_cases hlt : field.toNat < 32
  · have hne : (⟨field.toNat, hlt⟩ : Fin 32) ≠ j := ofNat_field hlt j fun heq => hj (Option.some.inj heq ▸ hf)
    rw [withSrc_of_lt hlt, withSrc_of_lt hlt, h.regs _ hne]; exact hk _
  · have hge := Nat.not_lt.1 hlt
    rw [withSrc_of_ge hge, withSrc_of_ge hge]; exact (h.raise _).next

end

section
variable {src1 src2 dst r : Byte} (h : AgreeExcept j s s')
include h

theorem arith_agree {f : Word → Word → Word} (hj : BitVec.ofNat 8 j.val ∉ [src1, src2]) :
    OutAgree j (arith f src1 src2 dst s) (arith f src1 src2 dst s') := by
  refine withSrc_agree h hj (by simp) fun A => withSrc_agree h hj (by simp) fun B => withDst_agree h fun d => ?_
  rw [h.pc]
  exact ((h.setReg _ _).retire _ _).next

theorem execDiv_agree (hj : BitVec.ofNat 8 j.val ∉ [src1, src2]) :
    OutAgree j (execDiv src1 src2 dst s) (execDiv src1 src2 dst s') := by
  refine withSrc_agree h hj (by simp) fun A => withSrc_agree h hj (by simp) fun B => withDst_agree h fun d => ?_
  rw [h.pc]
  cases divFault A B with
  | some k => exact (h.raise k).next
  | none => exact (((h.setReg _ _).setRemainder _).retire _ _).next

theorem comparison_agree {rel : Word → Word → Bool} (hj : BitVec.ofNat 8 j.val ∉ [src1, src2]) :
    OutAgree j (comparison rel src1 src2 s) (comparison rel src1 src2 s') := by
  refine withSrc_agree h hj (by simp) fun A => withSrc_agree h hj (by simp) fun B => ?_
  rw [h.pc]
  exact ((h.setEqualFlag _).retire _ _).next

theorem jump_agree {target : Word → PcVal} (hj : BitVec.ofNat 8 j.val ∉ [r]) :
    OutAgree j (withSrc r s fun T => .next (s.retire (target T) true))
      (withSrc r s' fun T => .next (s'.retire (target T) true)) :=
  withSrc_agree h hj (by simp) fun _ => (h.retire _ _).next

/-- From states that differ in a register it does not read, an instruction leads to states that differ in no other. -/
theorem exec_agree {i : Instr} (hj : BitVec.ofNat 8 j.val ∉ sources i) : OutAgree j (exec i s) (exec i s') := by
  cases i with
  | load dst imm16 =>
    refine withDst_agree h fun d => ?_
    rw [h.pc]
    exact ((h.setReg _ _).retire _ _).next
  | hlt =>
    simp only [exec, execHlt, h.pc]
    exact (h.retire _ _).next
  | illegal => exact (h.raise _).next
  | div src1 src2 dst => exact execDiv_agree h hj
  | add src1 src2 dst | sub src1 src2 dst | mul src1 src2 dst => exact arith_agree h hj
  | eq src1 src2 _ | neq src1 src2 _ | gte src1 src2 _ | lte src1 src2 _ | lt src1 src2 _ | gt src1 src2 _ =>
    exact comparison_agree h hj
  | jmp r => exact jump_agree h hj
  | jmpf r | jmpe r =>
    simp only [exec, execJmpf, execJmpe, h.pc, h.equalFlag]
    exact jump_agree h hj

end

/-- Settles O26: writing a register makes a state that agrees but for it, and executing keeps the agreement. -/
theorem unreadRegistersDoNotMatter : Obligations.UnreadRegistersDoNotMatter := by
  intro i s t j v hj h
  obtain ⟨u, t', hu, ht', ha⟩ := exec_agree (AgreeExcept.of_setReg j s v) hj
  cases h.symm.trans hu
  exact ⟨t', ht', ha.regs, ha.pc, ha.equalFlag, ha.remainder, ha.runState, ha.faultKind, ha.faultPc, ha.prog, ha.result⟩

end Sys2Proof.Machine

/-! PROOFS. What a step changes, by the instruction it executed: the flag, the remainder (spec/10_state.md R29, R30),
and the pc in integers (R27). -/

namespace Sys2Proof.Machine

variable {i : Instr} {s t : State}

/-- A step keeps the flag and the remainder, or it executed an instruction, which keeps the flag if it is no comparison
and the remainder if it is no division. -/
theorem step_keeps_or_executes (hP : s.prog.wf = true) (h : step s = .next t) :
    (t.equalFlag = s.equalFlag ∧ t.remainder = s.remainder) ∨
    ∃ i, s.executes i ∧ (isComparison i = false → t.equalFlag = s.equalFlag) ∧
      (isDivision i = false → t.remainder = s.remainder) := by
  obtain ⟨_, rfl⟩ | ⟨_, _, rfl⟩ | ⟨_, k, rfl⟩ | ⟨_, i, u, he, _, hret, ⟨_, rfl⟩ | ⟨_, rfl⟩⟩ := step_next hP h
  · exact .inl ⟨rfl, rfl⟩
  · exact .inl ⟨rfl, rfl⟩
  · exact .inl ⟨rfl, rfl⟩
  · exact .inr ⟨i, he, hret.equalFlag, hret.remainder⟩
  · exact .inr ⟨i, he, by simpa using hret.equalFlag, by simpa using hret.remainder⟩

/-- Settles O35: a step that executed no comparison kept the flag. -/
theorem onlyComparisonsChangeTheFlag : Obligations.OnlyComparisonsChangeTheFlag := by
  intro s t hP h hne
  obtain ⟨hflag, _⟩ | ⟨i, he, hflag, _⟩ := step_keeps_or_executes hP h
  · exact absurd hflag hne
  · exact ⟨i, he, Bool.eq_true_of_not_eq_false fun hc => hne (hflag hc)⟩

theorem isDivision_iff : isDivision i = true ↔ ∃ src1 src2 dst, i = .div src1 src2 dst := by
  cases i <;> simp [isDivision]

/-- Settles O36: a step that executed no `div` kept the remainder. -/
theorem onlyDivChangesTheRemainder : Obligations.OnlyDivChangesTheRemainder := by
  intro s t hP h hne
  obtain ⟨_, hrem⟩ | ⟨i, he, _, hrem⟩ := step_keeps_or_executes hP h
  · exact absurd hrem hne
  · obtain ⟨src1, src2, dst, rfl⟩ := isDivision_iff.1 (Bool.eq_true_of_not_eq_false fun hd => hne (hrem hd))
    exact ⟨src1, src2, dst, he⟩

/-- A step at an instruction that leaves no fault completed that very instruction; its pc is the step's. -/
theorem step_completes (hP : s.prog.wf = true) (he : s.executes i) (h : step s = .next t) (hf : t.runState ≠ .faulted) :
    ∃ u, exec i s = .next u ∧ Retired i s u ∧ t.pc = u.pc := by
  obtain ⟨hs, _⟩ | ⟨_, hend, _⟩ | ⟨_, k, rfl⟩ | ⟨_, i', u, he', hu, hret, ht⟩ := step_next hP h
  · exact absurd hs (executes_not_faulted he)
  · exact absurd hend (Int.not_le.2 he.1.2.2)
  · exact absurd rfl hf
  · cases executes_unique he he'
    refine ⟨u, hu, hret, ?_⟩
    obtain ⟨_, rfl⟩ | ⟨_, rfl⟩ := ht
    · rfl
    · exact u.endRound_pc

/-- What every completed access leads to, the access leads to, if it takes no fault. -/
theorem withDst_next_or_raise {field : Byte} {k : Fin 32 → Out} {Q : Prop}
    (hk : ∀ d, k d = .next t → Q ∨ ∃ f, t = s.raise f) (h : withDst field s k = .next t) : Q ∨ ∃ f, t = s.raise f := by
  obtain ⟨_, h⟩ | h := withDst_next h
  · exact hk _ h
  · exact .inr ⟨_, h⟩

/-- An instruction that is no jump leaves the pc just after it, unless it takes a fault. -/
theorem exec_pc_of_not_jump (hi : ∀ r, i ≠ .jmp r ∧ i ≠ .jmpf r ∧ i ≠ .jmpe r) (h : exec i s = .next t) :
    t.pc = seqPc s.pc i.opcode.length ∨ ∃ k, t = s.raise k := by
  cases i with
  | load dst imm16 => exact withDst_next_or_raise (fun _ h => by cases h; exact .inl rfl) h
  | hlt => cases h; exact .inl rfl
  | illegal => cases h; exact .inr ⟨_, rfl⟩
  | div src1 src2 dst =>
    refine withDst_next_or_raise (fun _ => withDst_next_or_raise fun _ => withDst_next_or_raise fun _ h => ?_) h
    split at h
    · cases h; exact .inr ⟨_, rfl⟩
    · cases h; exact .inl rfl
  | jmp r => exact absurd rfl (hi r).1
  | jmpf r => exact absurd rfl (hi r).2.1
  | jmpe r => exact absurd rfl (hi r).2.2
  | add src1 src2 dst | sub src1 src2 dst | mul src1 src2 dst =>
    refine (arith_next h).imp_left ?_
    rintro ⟨_, _, _, rfl⟩
    rfl
  | eq src1 src2 _ | neq src1 src2 _ | gte src1 src2 _ | lte src1 src2 _ | lt src1 src2 _ | gt src1 src2 _ =>
    refine (comparison_next h).imp_left ?_
    rintro ⟨_, rfl⟩
    rfl

/-- A jump whose register field is good sets the pc to its target. -/
theorem jump_pc {target : Word → PcVal} {r : Byte} (hr : r.toNat < 32)
    (h : (withSrc r s fun T => .next (s.retire (target T) true)) = .next t) : t.pc = target s.regs[r.toNat] := by
  rw [withSrc_of_lt hr] at h
  cases h
  rfl

/-- Settles O38: each next pc is one exact sum, because the pc is inside a program of at most 2^32 bytes. -/
theorem pcArithmeticNeverWraps : Obligations.PcArithmeticNeverWraps := by
  intro s t i hP hlen he h hf
  obtain ⟨u, hu, hret, hpc⟩ := step_completes hP he h hf
  have hfits := executes_fits he
  obtain ⟨⟨_, h0, h1⟩, _⟩ := he
  rw [hpc]
  refine ⟨?_, ?_, ?_, ?_⟩
  · rintro r hr rfl
    rw [jump_pc hr hu, toInt_absPc]
  · rintro r hr rfl
    rw [jump_pc hr hu, toInt_relPc _ h0 (by omega)]
  · rintro r hr rfl
    rw [jump_pc (target := fun T => if s.equalFlag then absPc T else seqPc s.pc 2) hr hu]
    split
    · exact toInt_absPc _
    · exact toInt_seqPc h0 (by omega)
  · intro hi
    obtain hseq | ⟨k, rfl⟩ := exec_pc_of_not_jump hi hu
    · rw [hseq, toInt_seqPc h0 (by omega)]
    · exact absurd rfl (hret.not_fault k)

end Sys2Proof.Machine

/-! PROOFS. Program memory under the step: nothing writes it, and a negative pc fetches nothing from it
(spec/20_memory.md R42, R48). -/

namespace Sys2Proof.Machine

variable {s t : State}

/-- A negative pc is a fault entry of an IDLE or RUNNING block; the end of the round leaves it as it is. -/
theorem step_of_negative (hf : s.runState ≠ .faulted) (h : s.pc.toInt < 0) :
    step s = .next (s.raise .fetchAddress) := by
  cases hr : s.runState with
  | faulted => exact absurd hr hf
  | idle => rw [step_of_idle hr, stepOnce_of_negative h]
  | running => rw [step_of_running hr, stepOnce_of_negative h, mapNext_next, State.endRound_raise]

/-- Settles O29: the state after the fault entry, written out. -/
theorem negativePcTakesFetchAddressFault : Obligations.NegativePcTakesFetchAddressFault :=
  fun _ => step_of_negative

/-- In any program memory, canonical or not, the fetch reads only and what executes keeps the program. -/
theorem fetchExec_keeps_prog {a : Nat} (h : fetchExec s a = .next t) : t.prog = s.prog := by
  unfold fetchExec at h
  split at h
  · exact (exec_framed h).prog
  · cases h; exact State.raise_prog ..
  · cases h

theorem stepOnce_keeps_prog (h : stepOnce s = .next t) : t.prog = s.prog := by
  by_cases hend : (s.prog.len : Int) ≤ s.pc.toInt
  · rw [stepOnce_at_end hend] at h
    cases h; exact State.report_prog ..
  by_cases hneg : s.pc.toInt < 0
  · rw [stepOnce_of_negative hneg] at h
    cases h; exact State.raise_prog ..
  · rw [stepOnce_inside (Int.not_lt.1 hneg) (Int.not_le.1 hend)] at h
    exact fetchExec_keeps_prog h

/-- Settles O34: the `Step` writes no program memory, and what phase 0 and the end of a round write is not program
memory either. -/
theorem stepNeverWritesProgram : Obligations.StepNeverWritesProgram := by
  intro s t h
  cases hr : s.runState with
  | faulted => rw [step_of_faulted hr] at h; cases h; exact State.report_prog ..
  | idle => exact stepOnce_keeps_prog (step_of_idle hr ▸ h)
  | running =>
    obtain ⟨u, hu, rfl⟩ := mapNext_eq_next (step_of_running hr ▸ h)
    exact u.endRound_prog.trans (stepOnce_keeps_prog hu)

end Sys2Proof.Machine

/-! PROOFS. APPEND: the bytes it adds, and the instruction they hold (spec/20_memory.md R41, R53). -/

namespace Sys2Proof.Machine

variable {s t : State} {i : Instr} {P : Memory} {bytes : List Byte}

@[simp] theorem Memory.bytes_append (P : Memory) (bytes : List Byte) : (P.append bytes).bytes = P.bytes ++ bytes := by
  simp [Memory.append, Memory.bytes, Memory.map_cellsFrom]

theorem Memory.read_append_earlier (hP : P.wf = true) {a : Nat} (ha : a < P.len) :
    (P.append bytes).read a = P.read a := by
  rw [Memory.read_eq (Memory.wf_append hP bytes), Memory.read_eq hP, Memory.bytes_append,
    List.getElem?_append_left (by rwa [Memory.length_bytes])]

theorem Memory.read_append_added (hP : P.wf = true) (k : Nat) : (P.append bytes).read (P.len + k) = bytes[k]? := by
  rw [Memory.read_eq (Memory.wf_append hP bytes), Memory.bytes_append, ← Memory.length_bytes,
    List.getElem?_append_right (Nat.le_add_right ..), Nat.add_sub_cancel_left]

theorem hostAppend_of_fits (hr : s.runState ≠ .running) (hfit : s.prog.len + bytes.length ≤ Config.progMax) :
    hostAppend bytes s = ({ s with prog := s.prog.append bytes }, .accepted) := by
  rw [hostAppend, if_neg hr, if_neg (Nat.not_lt.2 hfit)]

theorem hostAppend_of_exceeds (hr : s.runState ≠ .running) (hmax : Config.progMax < s.prog.len + bytes.length) :
    hostAppend bytes s = (s, .refused) := by
  rw [hostAppend, if_neg hr, if_pos hmax]

/-- Settles O49: an accepted APPEND replaces the program by `Memory.append`, read byte by byte. -/
theorem appendAddsBytesAtTheEnd : Obligations.AppendAddsBytesAtTheEnd := fun s bytes hP hr =>
  ⟨fun hfit => ⟨s.prog.append bytes, hostAppend_of_fits hr hfit, Memory.len_append ..,
    fun _ => Memory.read_append_earlier hP, fun k _ => Memory.read_append_added hP k⟩, hostAppend_of_exceeds hr⟩

/-- The decoder takes an instruction's operand bytes back and passes on what follows them. -/
theorem decodeOperands_operandBytes (i : Instr) (rest : List Byte) :
    decodeOperands i.opcode (i.operandBytes ++ rest) = .ok (i, rest) := by
  cases i with
  | load dst imm16 =>
    exact congrArg (fun imm => Except.ok (Instr.load dst imm, rest)) (immOfBytes_extract imm16)
  | hlt | illegal => rfl
  | jmp r | jmpf r | jmpe r => rfl
  | add src1 src2 dst | sub src1 src2 dst | mul src1 src2 dst | div src1 src2 dst => rfl
  | eq src1 src2 rsv | neq src1 src2 rsv | gte src1 src2 rsv => rfl
  | lte src1 src2 rsv | lt src1 src2 rsv | gt src1 src2 rsv => rfl

theorem decode_encode_append (i : Instr) (rest : List Byte) : decode (encode i ++ rest) = .ok (i, rest) := by
  rw [encode, List.cons_append, decode, decodeOpcode_code, decodeOperands_operandBytes]

theorem decode_encode (i : Instr) : decode (encode i) = .ok (i, []) := by
  simpa using decode_encode_append i []

/-- At the end of the program, what the next step executes is the instruction appended there (R53). -/
theorem executes_of_append (hf : s.runState ≠ .faulted) (hpc : s.pc.toInt = (s.prog.len : Int)) :
    { s with prog := s.prog.append (encode i) }.executes i := by
  have hlen : (encode i).length = i.operandBytes.length + 1 := rfl
  have hdrop : (s.prog.append (encode i)).bytes.drop s.pc.toInt.toNat = encode i := by
    rw [hpc, Int.toNat_natCast, Memory.bytes_append, ← Memory.length_bytes, List.drop_left]
  refine ⟨⟨hf, hpc ▸ Int.natCast_nonneg _, ?_⟩, [], (congrArg decode hdrop).trans (decode_encode i)⟩
  simp only [Memory.len_append]
  omega

/-- STEP of an IDLE block is one execution of the instruction at the pc (R97). -/
theorem hostStep_of_executes (hP : s.prog.wf = true) (hr : s.runState = .idle) (he : s.executes i)
    (ht : exec i s = .next t) : (hostStep s).1 = t := by
  have hstep : step s = .next t := by rw [step_of_idle hr, stepOnce_executes hP he, ht]
  obtain ⟨r, hres⟩ := step_result hP hstep
  rw [hostStep_of_next (by simp [hr]) hstep hres]

/-- Settles O50: with the bytes appended, the block where it had stopped executes `i`. -/
theorem appendedInstructionRunsNext : Obligations.AppendedInstructionRunsNext := by
  intro s t i hP hr hpc hfit ht
  rw [hostAppend_of_fits (by simp [hr]) hfit]
  exact hostStep_of_executes (Memory.wf_append hP _) hr (executes_of_append (by simp [hr]) hpc) ht

end Sys2Proof.Machine

/-! PROOFS. The encoding of instructions, read both ways: the opcode table, the operand bytes, and the table words
(spec/30_encoding.md R60 to R71). -/

namespace Sys2Proof

/-- Settles O4: the decoder takes the opcode byte and then the operand bytes back. -/
theorem decodeOfEncodeIsIdentity : Obligations.DecodeOfEncodeIsIdentity := Machine.decode_encode_append

/-- A byte that decodes to an opcode has a row in the table, or it is the illegal sentinel by default. -/
theorem mem_of_opcodeOfByte {rows : List (Byte × Opcode)} {b : Byte} (h : opcodeOfByte rows b ≠ .illegal) :
    (b, opcodeOfByte rows b) ∈ rows := by
  induction rows with
  | nil => exact absurd rfl h
  | cons row rows ih =>
    rw [opcodeOfByte] at h ⊢
    split
    · next hb => exact hb ▸ List.mem_cons_self
    · next hb => exact List.mem_cons_of_mem _ (ih (by rwa [if_neg hb] at h))

/-- The table lists each opcode once: a row's byte is its opcode's byte, and only the sentinel's is 0x0F. -/
theorem opcodeTable_rows : ∀ row ∈ opcodeTable, row.2.code = row.1 ∧ (row.2 ≠ .illegal → row.1.toNat < 0x0F) := by
  decide

/-- A byte that decodes to an opcode is the byte of that opcode. -/
theorem code_decodeOpcode {b : Byte} (h : decodeOpcode b ≠ .illegal) : (decodeOpcode b).code = b :=
  (opcodeTable_rows _ (mem_of_opcodeOfByte h)).1

/-- The illegal opcode bytes of R66 and R69 (decision D27). -/
theorem decodeOpcode_of_ge {b : Byte} (h : 0x0F ≤ b.toNat) : decodeOpcode b = .illegal := by
  by_contra hop
  exact Nat.not_lt.2 h ((opcodeTable_rows _ (mem_of_opcodeOfByte hop)).2 hop)

theorem Instr.opcode_eq_illegal {i : Instr} : i.opcode = .illegal ↔ i = .illegal := by cases i <;> simp [Instr.opcode]

/-- Settles O5: the opcode byte is the one of the instruction's opcode, and the operand bytes are its own. -/
theorem decodedBytesAreTheEncoding : Obligations.DecodedBytesAreTheEncoding := by
  intro bytes i rest h hi
  cases bytes with
  | nil => cases h
  | cons b0 operands =>
    obtain ⟨hop, rfl⟩ := decodeOperands_ok h
    have hb0 : (decodeOpcode b0).code = b0 := code_decodeOpcode (hop ▸ mt Instr.opcode_eq_illegal.1 hi)
    rw [encode, hop, hb0, List.cons_append]

/-- Settles O6: the fifteen rows are looked up one by one, and every other byte is illegal. -/
theorem opcodeByteMapIsTotal : Obligations.OpcodeByteMapIsTotal := ⟨by decide, fun _ => decodeOpcode_of_ge⟩

/-- Settles O7: five encodings, and an `add` that lacks its last byte. -/
theorem writtenOutWordsDecode : Obligations.WrittenOutWordsDecode :=
  ⟨Machine.decode_encode (.load 0 500), Machine.decode_encode (.div 1 2 3), Machine.decode_encode (.gte 7 8 9),
    Machine.decode_encode (.jmpe 4), Machine.decode_encode_append .hlt [0x01, 0x02],
    by decide⟩

/-! The table words: one number with its bytes in place, most significant first (spec/20_memory.md R45). -/

theorem tableWordBytes_32 (op b1 b2 b3 : Byte) :
    tableWordBytes 32 (op.toNat * 2 ^ 24 + b1.toNat * 2 ^ 16 + b2.toNat * 2 ^ 8 + b3.toNat) = [op, b1, b2, b3] := by
  change [_, _, _, _] = [_, _, _, _]
  simp only [List.cons.injEq, and_true]
  refine ⟨?_, ?_, ?_, ?_⟩ <;> apply BitVec.eq_of_toNat_eq <;> rw [BitVec.toNat_ofNat] <;> omega

theorem tableWordBytes_16 (op b1 : Byte) : tableWordBytes 16 (op.toNat * 2 ^ 8 + b1.toNat) = [op, b1, 0, 0] := by
  change [_, _, 0, 0] = [_, _, 0, 0]
  simp only [List.cons.injEq, and_true]
  refine ⟨?_, ?_⟩ <;> apply BitVec.eq_of_toNat_eq <;> rw [BitVec.toNat_ofNat] <;> omega

/-- An immediate as a number is its two bytes, most significant first. -/
theorem toNat_immBytes (imm16 : Half) :
    imm16.toNat = (imm16.extractLsb' 8 8).toNat * 2 ^ 8 + (imm16.extractLsb' 0 8).toNat := by
  simp only [BitVec.extractLsb'_toNat, Nat.shiftRight_eq_div_pow]
  omega

/-- A word that holds an instruction's encoding, and then any bytes, decodes to the instruction. -/
theorem decodeTableWord_of_bytes {nbits w : Nat} {i : Instr} {rest : List Byte}
    (h : tableWordBytes nbits w = encode i ++ rest) : decodeTableWord nbits w = some i := by
  rw [decodeTableWord, h, Machine.decode_encode_append]

theorem decodeTableWord_32 {i : Instr} (op b1 b2 b3 : Byte) (h : encode i = [op, b1, b2, b3]) :
    decodeTableWord 32 (op.toNat * 2 ^ 24 + b1.toNat * 2 ^ 16 + b2.toNat * 2 ^ 8 + b3.toNat) = some i :=
  decodeTableWord_of_bytes (rest := []) (by rw [tableWordBytes_32, h, List.append_nil])

theorem decodeTableWord_16 {i : Instr} (op b1 : Byte) (h : encode i = [op, b1]) :
    decodeTableWord 16 (op.toNat * 2 ^ 8 + b1.toNat) = some i :=
  decodeTableWord_of_bytes (rest := [0, 0]) (by rw [tableWordBytes_16, h]; rfl)

/-- Settles O8: each word's bytes are the encoding of the instruction with those fields. -/
theorem tableWordFieldsAreReadInPlace : Obligations.TableWordFieldsAreReadInPlace := by
  refine ⟨fun dst imm16 => ?_, fun a b c => ⟨?_, ?_, ?_⟩, fun r => ⟨?_, ?_, ?_⟩, ?_, ?_⟩
  · rw [toNat_immBytes, ← Nat.add_assoc]
    exact decodeTableWord_32 0x00 dst _ _ rfl
  · exact decodeTableWord_32 0x01 a b c rfl
  · exact decodeTableWord_32 0x04 a b c rfl
  · exact decodeTableWord_32 0x0D a b c rfl
  · exact decodeTableWord_16 0x06 r rfl
  · exact decodeTableWord_16 0x07 r rfl
  · exact decodeTableWord_16 0x0E r rfl
  · exact decodeTableWord_of_bytes (i := .hlt) (rest := [0, 0, 0]) rfl
  · exact decodeTableWord_of_bytes (i := .illegal) (rest := [0, 0, 0]) rfl

end Sys2Proof

/-! PROOFS. Two descriptions of an instruction's effect: the decoder's control outputs, and `exec`
(spec/30_encoding.md R67, R68). -/

namespace Sys2Proof.Machine

/-- Settles O16: no meaning of a comparison looks at the reserved byte. -/
theorem reservedByteIsIgnored : Obligations.ReservedByteIsIgnored := fun _ _ _ _ _ => ⟨rfl, rfl, rfl, rfl, rfl, rfl⟩

/-- The row of `div`: the ALU gives a fault, or the quotient and the remainder of one commit. -/
theorem datapath_div (src1 src2 dst : Byte) (s : State) :
    datapath (.div src1 src2 dst) s = execDiv src1 src2 dst s := by
  simp only [datapath, execDiv, Instr.opcode, controlOf, aluControl, fieldsOf, portRead, portDst, if_true, aluOut]
  congr! 6 with A B d
  cases divFault A B <;> rfl

/-- Settles O54: the row of each opcode enables the ports and units that its meaning uses. -/
theorem datapathRefinesExec : Obligations.DatapathRefinesExec := by
  intro i s
  cases i with
  | div src1 src2 dst => exact datapath_div src1 src2 dst s
  | load | hlt | illegal => rfl
  | add | sub | mul => rfl
  | eq | neq | gte | lte | lt | gt => rfl
  | jmp | jmpf | jmpe => rfl

end Sys2Proof.Machine

/-! PROOFS. The toolchain: what an assembled line gives, and the lines of instructions assembled back
(spec/30_encoding.md R75 to R87). -/

namespace Sys2Proof.Machine

variable {ts : List Token} {bytes : List Byte}

/-! The length of what is assembled. -/

/-- A register is one byte and a number is two (R84). -/
theorem length_operandToken {t : Token} (h : operandToken t = .ok bytes) : bytes.length ≤ 2 := by
  cases t with
  | opcode op => cases h
  | register i => cases h; exact Nat.le_succ 1
  | number v => cases h; exact le_rfl

theorem length_operandTokens (h : operandTokens ts = .ok bytes) : bytes.length ≤ 2 * ts.length := by
  induction ts generalizing bytes with
  | nil => cases h; exact le_rfl
  | cons t ts ih =>
    rw [operandTokens] at h
    split at h
    · cases h
    · next ht =>
      split at h
      · cases h
      · next hts =>
        cases h
        have ht := length_operandToken ht
        have hts := ih hts
        rw [List.length_append, List.length_cons]
        omega

/-- What assembles is an opcode with at most three operands (R82, R83). -/
theorem assembleTokens_ok (h : assembleTokens ts = .ok bytes) : ∃ op operands more,
    ts = .opcode op :: operands ∧ operands.length ≤ 3 ∧ operandTokens operands = .ok more ∧ bytes = op.code :: more := by
  unfold assembleTokens at h
  split at h
  · cases h
  · next hlen =>
    split at h
    · next op operands =>
      split at h
      · cases h
      · next more hmore =>
        cases h
        rw [List.length_cons] at hlen
        exact ⟨op, operands, more, rfl, by omega, hmore, rfl⟩
    · cases h

theorem assembleLine_ok {line rest : List Char} (h : assembleLine line = .ok (bytes, rest)) :
    ∃ ts, scanLine line = .ok (ts, rest) ∧ assembleTokens ts = .ok bytes := by
  rw [assembleLine] at h
  split at h
  · cases h
  · next ts _ hscan =>
    split at h
    · cases h
    · next hbytes => cases h; exact ⟨ts, hscan, hbytes⟩

/-- Settles O56: one opcode byte, and at most two bytes for each of at most three operands. -/
theorem assembledLineIsOneToSevenBytes : Obligations.AssembledLineIsOneToSevenBytes := by
  intro line rest bytes h
  obtain ⟨_, _, h⟩ := assembleLine_ok h
  obtain ⟨_, _, _, _, hlen, hmore, rfl⟩ := assembleTokens_ok h
  have hmore := length_operandTokens hmore
  rw [List.length_cons]
  omega

/-! The text of a line, scanned and assembled. -/

theorem assembleLine_of_scan {line rest : List Char} (hs : scanLine line = .ok (ts, rest))
    (ha : assembleTokens ts = .ok bytes) : assembleLine line = .ok (bytes, rest) := by
  simp [assembleLine, hs, ha]

theorem assembleTokens_opcode {op : Opcode} (hlen : ts.length ≤ 3) (h : operandTokens ts = .ok bytes) :
    assembleTokens (.opcode op :: ts) = .ok (op.code :: bytes) := by
  simp [assembleTokens, h, Nat.lt_succ_of_le hlen]

theorem scanTokens_token {t : Token} {cs rest rest' : List Char} {fuel : Nat} (ht : scanNext cs = .ok (.token t rest))
    (hts : scanTokens fuel rest = .ok (ts, rest')) : scanTokens (fuel + 1) cs = .ok (t :: ts, rest') := by
  simp [scanTokens, ht, hts]

theorem scanTokens_nil (fuel : Nat) : scanTokens fuel [] = .ok ([], []) := by cases fuel <;> rfl

/-! A name that is no mnemonic. -/

theorem findName_of_notMem {rows : List (List Char × Opcode)} {w : List Char} (h : w ∉ rows.map (fun row => row.1)) :
    findName rows w = .illegal := by
  induction rows with
  | nil => rfl
  | cons row rows ih =>
    rw [List.map_cons, List.mem_cons, not_or] at h
    rw [findName, if_neg h.1, ih h.2]

/-- A letter is no blank and starts no number or register. -/
theorem isAlpha_separates {c : Char} (h : c.isAlpha = true) : isBlank c = false ∧ c ≠ '$' ∧ c ≠ '#' := by
  have ne : ∀ d : Char, d.isAlpha = false → c ≠ d := by
    rintro _ hd rfl
    exact Bool.noConfusion (h.symm.trans hd)
  exact ⟨by simp [isBlank, ne ' ' (by decide), ne '\t' (by decide)], ne '$' (by decide), ne '#' (by decide)⟩

/-- A run of letters that ends the text is one name (R79). -/
theorem scanNext_letters {c : Char} {cs : List Char} (h : ∀ d ∈ c :: cs, d.isAlpha = true) :
    scanNext (c :: cs) = .ok (.token (.opcode (resolveName (c :: cs))) []) := by
  obtain ⟨hc, hcs⟩ := List.forall_mem_cons.1 h
  obtain ⟨hb, h1, h2⟩ := isAlpha_separates hc
  rw [scanNext, List.dropWhile_cons_of_neg (by simp [hb])]
  simp only [h1, h2, hc, if_false, if_true]
  rw [List.takeWhile_eq_self_iff.2 hcs, List.dropWhile_eq_nil_iff.2 hcs]

/-- Settles O57: the line is one name, which resolves to the illegal sentinel. -/
theorem unknownMnemonicAssemblesToIllegal : Obligations.UnknownMnemonicAssemblesToIllegal := by
  intro w hne hw hunknown
  cases w with
  | nil => exact absurd rfl hne
  | cons c cs =>
    have hname : resolveName (c :: cs) = .illegal := findName_of_notMem hunknown
    have hscan := scanNext_letters hw
    rw [hname] at hscan
    exact assembleLine_of_scan (scanTokens_token hscan (scanTokens_nil _)) rfl

/-! The line of an instruction. -/

/-- The text of the token, with a space after it, scans to the token. -/
def Token.Scans (t : Token) : Prop :=
  ∀ rest : List Char, scanNext (t.text ++ ' ' :: rest) = .ok (.token t (' ' :: rest))

theorem scanTokens_space (fuel : Nat) (cs : List Char) :
    scanTokens (fuel + 1) (' ' :: cs) = scanTokens (fuel + 1) cs := by
  rw [scanTokens, scanTokens, scanNext_space]

/-- A line of tokens that scan one by one scans to these tokens, by induction on the line. -/
theorem scanTokens_lineText {fuel : Nat} (h : ∀ t ∈ ts, t.Scans) (hfuel : ts.length < fuel) :
    scanTokens fuel (lineText ts) = .ok (ts, []) := by
  induction ts generalizing fuel with
  | nil => exact scanTokens_nil fuel
  | cons t ts ih =>
    obtain ⟨ht, hts⟩ := List.forall_mem_cons.1 h
    rw [List.length_cons] at hfuel
    obtain ⟨fuel, rfl⟩ : ∃ n, fuel = n + 1 + 1 := ⟨fuel - 2, by omega⟩
    refine scanTokens_token (ht _) ?_
    rw [scanTokens_space]
    exact ih hts (by omega)

theorem length_le_lineText (ts : List Token) : ts.length ≤ (lineText ts).length := by
  induction ts with
  | nil => exact le_rfl
  | cons t ts ih =>
    simp only [lineText, List.length_append, List.length_cons]
    omega

theorem scanLine_lineText (h : ∀ t ∈ ts, t.Scans) : scanLine (lineText ts) = .ok (ts, []) :=
  scanTokens_lineText h (Nat.lt_succ_of_le (length_le_lineText ts))

/-- Register tokens assemble to their indices. -/
theorem operandTokens_registers (fields : List Byte) : operandTokens (fields.map .register) = .ok fields := by
  induction fields with
  | nil => rfl
  | cons r fields ih => simp [operandTokens, operandToken, ih]

/-- An instruction's line is its mnemonic and at most three operands that scan and assemble to its operand bytes. -/
theorem Token.ofInstr_operands (i : Instr) : ∃ operands, Token.ofInstr i = .opcode i.opcode :: operands ∧
    operands.length ≤ 3 ∧ (∀ t ∈ operands, t.Scans) ∧ operandTokens operands = .ok i.operandBytes := by
  by_cases hload : ∃ dst imm16, i = .load dst imm16
  · obtain ⟨dst, imm16, rfl⟩ := hload
    have himm : imm16.toNat ≤ 2147483647 := by omega
    refine ⟨[.register dst, .number imm16.toNat], rfl, Nat.le_succ 2, ?_, ?_⟩
    · simpa using ⟨scanNext_register dst, scanNext_number himm⟩
    · simp [operandTokens, operandToken, Instr.operandBytes]
  · refine ⟨i.operandBytes.map .register, ?_, ?_, ?_, operandTokens_registers _⟩
    · unfold Token.ofInstr
      split
      · next dst imm16 => exact absurd ⟨dst, imm16, rfl⟩ hload
      · rfl
    · have hlen := length_operandBytes i
      have hop := i.opcode.length_le_four
      rw [List.length_map]
      omega
    · simpa [Token.Scans] using fun r _ => scanNext_register r

/-- Settles O55: each token of the line scans back, and the operands assemble to the operand bytes. -/
theorem assembledLineDecodesBack : Obligations.AssembledLineDecodesBack := by
  intro i hi
  obtain ⟨operands, hts, hlen, hscans, hbytes⟩ := Token.ofInstr_operands i
  have hop : Token.Scans (.opcode i.opcode) := scanNext_opcode (mt Instr.opcode_eq_illegal.1 hi)
  have hscan := scanLine_lineText (List.forall_mem_cons.2 ⟨hop, hscans⟩)
  rw [← hts] at hscan
  exact ⟨assembleLine_of_scan hscan (hts ▸ assembleTokens_opcode hlen hbytes), decode_encode i⟩

end Sys2Proof.Machine

/-! PROOFS. What the step at the pc does: at the end of the program, at an instruction, at missing operand bytes, and
what it leaves when it faults or executes (spec/40_execution.md R91 to R95). -/

namespace Sys2Proof.Machine

variable {s t u : State} {i : Instr}

/-! The end of a round, by the result of its `Step` (R96). -/

theorem State.endRound_of_ends (h : t.result = some (.executed false) ∨ t.result = some .notExecuted) :
    t.endRound = { t with runState := .idle } := by
  obtain h | h := h <;> simp [State.endRound, h]

theorem State.endRound_of_continues (h : t.result = some (.executed true)) : t.endRound = t := by
  simp [State.endRound, h]

/-- Of what executes, `hlt` alone ends the run. -/
theorem Retired.ends_or_continues (h : Retired i s u) :
    (i = .hlt ∧ u.result = some (.executed false)) ∨ (i ≠ .hlt ∧ u.result = some (.executed true)) := by
  by_cases hi : i = .hlt
  · exact .inl ⟨hi, by simp [h.result, hi]⟩
  · exact .inr ⟨hi, by simp [h.result, hi]⟩

/-- An execution never reports NOT_EXECUTED, so only EXECUTED(false) ends its round. -/
theorem endRound_of_exec (h : exec i s = .next t) : t.endRound = afterRound t := by
  obtain hret | ⟨k, rfl⟩ := exec_next h
  · obtain ⟨_, hres⟩ | ⟨_, hres⟩ := hret.ends_or_continues
    · rw [State.endRound_of_ends (.inl hres), afterRound, if_pos hres]
    · rw [State.endRound_of_continues hres, afterRound, if_neg (by simp [hres])]
  · rfl

/-! The step, from what its `Step` does. -/

/-- A fault entry of the `Step` is the whole step's: the end of the round leaves it as it is. -/
theorem step_of_stepOnce_raise {k : FaultKind} (hf : s.runState ≠ .faulted) (h : stepOnce s = .next (s.raise k)) :
    step s = .next (s.raise k) := by
  cases hr : s.runState with
  | faulted => exact absurd hr hf
  | idle => rw [step_of_idle hr, h]
  | running => rw [step_of_running hr, h, mapNext_next, State.endRound_raise]

theorem step_at_end (hf : s.runState ≠ .faulted) (hend : (s.prog.len : Int) ≤ s.pc.toInt) :
    step s = .next { s.report .notExecuted with runState := .idle } := by
  cases hr : s.runState with
  | faulted => exact absurd hr hf
  | idle => rw [step_of_idle hr, stepOnce_at_end hend, ← hr]; rfl
  | running =>
    rw [step_of_running hr, stepOnce_at_end hend, mapNext_next, State.endRound_of_ends (.inr (State.report_result ..))]

/-- Settles O28: in an IDLE block `run_state` is IDLE already, and in a RUNNING one the round ends. -/
theorem endOfProgramIsNotExecuted : Obligations.EndOfProgramIsNotExecuted := fun _ => step_at_end

theorem step_of_executes (hP : s.prog.wf = true) (he : s.executes i) (h : exec i s = .next t) :
    (s.runState = .idle → step s = .next t) ∧ (s.runState = .running → step s = .next (afterRound t)) := by
  have honce : stepOnce s = .next t := (stepOnce_executes hP he).trans h
  refine ⟨fun hr => by rw [step_of_idle hr, honce], fun hr => ?_⟩
  rw [step_of_running hr, honce, mapNext_next, endRound_of_exec h]

/-- Settles O27: the decoded instruction is the one that executes, in either state that is not FAULTED. -/
theorem stepRunsTheDecodedInstruction : Obligations.StepRunsTheDecodedInstruction := by
  intro s t i rest hP h0 h1 hd h
  have he (hf : s.runState ≠ .faulted) : s.executes i := ⟨⟨hf, h0, h1⟩, rest, hd⟩
  exact ⟨fun hr => (step_of_executes hP (he (by simp [hr])) h).1 hr,
    fun hr => (step_of_executes hP (he (by simp [hr])) h).2 hr⟩

/-- The check of R91 before any operand byte is read. -/
theorem fetch_truncated {P : Memory} {a : Nat} {b : Byte} (hb : P.read a = some b)
    (hlen : P.len < a + (decodeOpcode b).length) : fetch P a = .truncated := by
  simp [fetch, hb, hlen]

/-- Settles O31: the opcode byte lies inside the program, and the fetch finds its operands missing. -/
theorem missingOperandsTakeTruncatedFault : Obligations.MissingOperandsTakeTruncatedFault := by
  intro s b hP hf h0 hb _ hlen
  have hin : s.pc.toInt.toNat < s.prog.len := (Memory.read_isSome hP _).1 (by rw [hb]; rfl)
  have honce : stepOnce s = .next (s.raise .truncatedInstruction) := by
    rw [stepOnce_inside h0 (by omega), fetchExec, State.fetchOffset, fetch_truncated hb hlen]
  exact step_of_stepOnce_raise hf honce

/-! What the step leaves. -/

/-- What a step leaves when no fault stands: it goes on, it ends (a run, if one is in progress), or it faults. -/
theorem step_round (hP : s.prog.wf = true) (hf : s.runState ≠ .faulted) (h : step s = .next t) :
    (t.result = some (.executed true) ∧ t.runState = s.runState) ∨
    ((t.result = some (.executed false) ∨ t.result = some .notExecuted) ∧ t.runState = .idle) ∨
    ∃ k, t = s.raise k := by
  obtain ⟨hs, _⟩ | ⟨_, _, rfl⟩ | ⟨_, hk⟩ | ⟨_, i, u, _, _, hret, hround⟩ := step_next hP h
  · exact absurd hs hf
  · exact .inr (.inl ⟨.inr rfl, rfl⟩)
  · exact .inr (.inr hk)
  · obtain ⟨_, hres⟩ | ⟨_, hres⟩ := hret.ends_or_continues
    · obtain ⟨hr, rfl⟩ | ⟨_, rfl⟩ := hround
      · exact .inr (.inl ⟨.inl hres, hret.runState.trans hr⟩)
      · rw [State.endRound_of_ends (.inl hres)]
        exact .inr (.inl ⟨.inl hres, rfl⟩)
    · obtain ⟨_, rfl⟩ | ⟨_, rfl⟩ := hround
      · exact .inl ⟨hres, hret.runState⟩
      · rw [State.endRound_of_continues hres]
        exact .inl ⟨hres, hret.runState⟩

/-- A step enters FAULTED by a fault entry only. -/
theorem step_enters_fault (hP : s.prog.wf = true) (hf : s.runState ≠ .faulted) (h : step s = .next t)
    (ht : t.runState = .faulted) : ∃ k, t = s.raise k := by
  obtain ⟨_, hsame⟩ | ⟨_, hidle⟩ | hk := step_round hP hf h
  · exact absurd (hsame.symm.trans ht) hf
  · exact nomatch hidle.symm.trans ht
  · exact hk

/-- Settles O33: the state of a fault entry, written out, with a code of R140. -/
theorem faultsArePrecise : Obligations.FaultsArePrecise := by
  intro s t hP hf h ht
  obtain ⟨k, rfl⟩ := step_enters_fault hP hf h ht
  exact ⟨rfl, k.code_range⟩

/-- Settles O37: of the results a step can leave, EXECUTED is that of a completed instruction. -/
theorem onlyHltClearsTheContinueSignal : Obligations.OnlyHltClearsTheContinueSignal := by
  intro s t cont hP h hres
  obtain ⟨_, rfl⟩ | ⟨_, _, rfl⟩ | ⟨_, k, rfl⟩ | ⟨hf, i, u, he, _, hret, ht⟩ := step_next hP h
  · cases hres
  · cases hres
  · cases hres
  · have hu : u.result = some (.executed cont) := by
      obtain ⟨_, rfl⟩ | ⟨_, rfl⟩ := ht
      · exact hres
      · exact u.endRound_result ▸ hres
    have hcont : cont = decide (i ≠ .hlt) := by simpa using hu.symm.trans hret.result
    exact ⟨hf, i, he, by simp [hcont]⟩

end Sys2Proof.Machine

/-! PROOFS. STEP and RUN (spec/40_execution.md R96 to R98): what they reply, and a RUN that never ends. -/

namespace Sys2Proof.Machine

variable {s t : State}

theorem step_keeps_wf (hP : s.prog.wf = true) (h : step s = .next t) : t.prog.wf = true :=
  stepNeverWritesProgram s t h ▸ hP

/-- Settles O44: STEP is one step, and the block is IDLE after it, or it is the fault entry. -/
theorem singleStepStaysIdleUnlessFault : Obligations.SingleStepStaysIdleUnlessFault := by
  intro s hP hr
  obtain ⟨t, ht⟩ := step_answers hP
  obtain ⟨r, hres⟩ := step_result hP ht
  refine ⟨t, r, ht, hostStep_of_next (by simp [hr]) ht hres, hres, ?_⟩
  obtain ⟨_, hsame⟩ | ⟨_, hidle⟩ | ⟨k, rfl⟩ := step_round hP (by simp [hr]) ht
  · exact .inl (hsame.trans hr)
  · exact .inl hidle
  · exact .inr ⟨k.code, (Option.some.inj hres).symm, rfl⟩

/-- A reply of RUN, with the state it leaves, is one of a run that ended, that faulted or that goes on. -/
def ReplyAgrees (t : State) (reply : Reply) : Prop :=
  (reply = .halted ∧ t.runState = .idle ∧ (t.result = some (.executed false) ∨ t.result = some .notExecuted)) ∨
  (reply = .faulted t.faultKind ∧ t.runState = .faulted) ∨
  (reply = .stillRunning ∧ t.runState = .running)

theorem runLoop_replyAgrees (fuel : Nat) (hP : s.prog.wf = true) (hr : s.runState = .running) :
    ReplyAgrees (runLoop fuel s).1 (runLoop fuel s).2 := by
  induction fuel generalizing s with
  | zero => exact .inr (.inr ⟨rfl, hr⟩)
  | succ fuel ih =>
    obtain ⟨t, ht⟩ := step_answers hP
    obtain ⟨hres, hsame⟩ | ⟨hres, hidle⟩ | ⟨k, rfl⟩ := step_round hP (by simp [hr]) ht
    · rw [runLoop_continues ht hres]
      exact ih (step_keeps_wf hP ht) (hsame.trans hr)
    · rw [runLoop_halts ht hres]
      exact .inl ⟨rfl, hidle, hres⟩
    · rw [runLoop_faults ht (State.raise_result ..)]
      exact .inr (.inl ⟨rfl, rfl⟩)

/-- Settles O45: RUN is its loop from the same state, RUNNING. -/
theorem runReplyAgreesWithRunState : Obligations.RunReplyAgreesWithRunState := by
  intro fuel s hP hr
  rw [hostRun_of_idle hr]
  exact runLoop_replyAgrees fuel hP rfl

/-! A `jmpf` by -2 (R98). -/

/-- The base of `jmpf` is the pc plus 2, so a displacement of -2 leads back. -/
theorem relPc_neg_two (a : PcVal) {v : Word} (hv : v.toInt = -2) : relPc a v = a := by
  obtain rfl : v = -2 := BitVec.eq_of_toInt_eq (hv.trans (by decide))
  have hsum : sextPc (-2) = -BitVec.ofNat 64 2 := by decide
  rw [relPc, seqPc, hsum, add_neg_cancel_right]

/-- One round at such a `jmpf` changes the result port only. -/
theorem step_of_jmpf_neg_two {r : Byte} (hlt : r.toNat < 32) (hP : s.prog.wf = true) (hr : s.runState = .running)
    (he : s.executes (.jmpf r)) (hv : s.regs[r.toNat].toInt = -2) : step s = .next (s.retire s.pc true) := by
  have hexec : exec (.jmpf r) s = .next (s.retire s.pc true) := by
    rw [exec, execJmpf, withSrc_of_lt hlt, State.x, relPc_neg_two _ hv]
  exact (step_of_executes hP he hexec).2 hr

theorem runLoop_of_jmpf_neg_two {r : Byte} (hlt : r.toNat < 32) (fuel : Nat) (hP : s.prog.wf = true)
    (hr : s.runState = .running) (he : s.executes (.jmpf r)) (hv : s.regs[r.toNat].toInt = -2) :
    (runLoop fuel s).2 = .stillRunning ∧ (runLoop fuel s).1.pc = s.pc := by
  induction fuel generalizing s with
  | zero => exact ⟨rfl, rfl⟩
  | succ fuel ih =>
    rw [runLoop_continues (step_of_jmpf_neg_two hlt hP hr he hv) (State.retire_result ..)]
    exact ih hP hr he hv

theorem State.executes.running {i : Instr} (he : s.executes i) : { s with runState := .running }.executes i := by
  obtain ⟨⟨_, hin⟩, hd⟩ := he
  exact ⟨⟨RunState.noConfusion, hin⟩, hd⟩

/-- Settles O47: every round of the run executes the same `jmpf` again. -/
theorem jmpfOntoItselfNeverEnds : Obligations.JmpfOntoItselfNeverEnds := by
  intro fuel s r hlt hP hr he hv
  rw [hostRun_of_idle hr]
  exact runLoop_of_jmpf_neg_two hlt fuel hP rfl he.running hv

end Sys2Proof.Machine

/-! PROOFS. RUN as repeated STEPs (spec/40_execution.md R96, R97): a round of RUN's loop does what a STEP does, up to
`run_state`, which no meaning reads. -/

namespace Sys2Proof.Machine

variable {s t : State}

/-- The `run_state` in a RUN in progress, where repeated STEPs have the given one. -/
def RunState.inRun : RunState → RunState
  | .faulted => .faulted
  | .idle => .running
  | .running => .running

/-- The state of a RUN in progress, where repeated STEPs have `s`: RUNNING, unless a fault has stopped the block. -/
def State.inRun (s : State) : State := { s with runState := s.runState.inRun }

theorem State.endRound_inRun_of_ends (hr : t.runState = .idle)
    (h : t.result = some (.executed false) ∨ t.result = some .notExecuted) : t.inRun.endRound = t := by
  rw [State.endRound_of_ends (t := t.inRun) h, ← hr]
  rfl

/-! Every meaning commutes with `inRun`: the writes keep `run_state`, and a fault entry overwrites it. -/

section
variable {field : Byte}

theorem withDst_inRun {k k' : Fin 32 → Out} (hk : ∀ d, k' d = mapNext State.inRun (k d)) :
    withDst field s.inRun k' = mapNext State.inRun (withDst field s k) := by
  by_cases hlt : field.toNat < 32
  · rw [withDst_of_lt hlt, withDst_of_lt hlt, hk]
  · have hge := Nat.not_lt.1 hlt
    rw [withDst_of_ge hge, withDst_of_ge hge]
    rfl

theorem withSrc_inRun {k k' : Word → Out} (hk : ∀ v, k' v = mapNext State.inRun (k v)) :
    withSrc field s.inRun k' = mapNext State.inRun (withSrc field s k) := withDst_inRun fun _ => hk _

end

section
variable {src1 src2 dst : Byte}

theorem arith_inRun {f : Word → Word → Word} :
    arith f src1 src2 dst s.inRun = mapNext State.inRun (arith f src1 src2 dst s) :=
  withSrc_inRun fun _ => withSrc_inRun fun _ => withDst_inRun fun _ => rfl

theorem execDiv_inRun : execDiv src1 src2 dst s.inRun = mapNext State.inRun (execDiv src1 src2 dst s) :=
  withSrc_inRun fun A => withSrc_inRun fun B => withDst_inRun fun _ => by
    cases divFault A B with
    | some k => rfl
    | none => rfl

theorem comparison_inRun {rel : Word → Word → Bool} :
    comparison rel src1 src2 s.inRun = mapNext State.inRun (comparison rel src1 src2 s) :=
  withSrc_inRun fun _ => withSrc_inRun fun _ => rfl

theorem jump_inRun {target : Word → PcVal} {r : Byte} :
    (withSrc r s.inRun fun T => .next (s.inRun.retire (target T) true)) =
      mapNext State.inRun (withSrc r s fun T => .next (s.retire (target T) true)) :=
  withSrc_inRun fun _ => rfl

end

theorem exec_inRun (i : Instr) (s : State) : exec i s.inRun = mapNext State.inRun (exec i s) := by
  cases i with
  | hlt | illegal => rfl
  | load dst imm16 => exact withDst_inRun fun _ => rfl
  | jmp r | jmpf r => exact jump_inRun
  | jmpe r => exact jump_inRun (target := fun T => if s.equalFlag then absPc T else seqPc s.pc 2)
  | div src1 src2 dst => exact execDiv_inRun
  | add src1 src2 dst | sub src1 src2 dst | mul src1 src2 dst => exact arith_inRun
  | eq src1 src2 _ | neq src1 src2 _ | gte src1 src2 _ | lte src1 src2 _ | lt src1 src2 _ | gt src1 src2 _ =>
    exact comparison_inRun

/-! The step and the loop. -/

theorem fetchExec_inRun (s : State) (a : Nat) : fetchExec s.inRun a = mapNext State.inRun (fetchExec s a) := by
  have hprog : s.inRun.prog = s.prog := rfl
  rw [fetchExec, fetchExec, hprog]
  cases fetch s.prog a with
  | instr i => exact exec_inRun i s
  | truncated => rfl
  | absent offset => rfl

theorem stepOnce_inRun (s : State) : stepOnce s.inRun = mapNext State.inRun (stepOnce s) := by
  by_cases hend : (s.prog.len : Int) ≤ s.pc.toInt
  · rw [stepOnce_at_end hend, stepOnce_at_end (s := s.inRun) hend]
    rfl
  by_cases hneg : s.pc.toInt < 0
  · rw [stepOnce_of_negative hneg, stepOnce_of_negative (s := s.inRun) hneg]
    rfl
  · have h0 := Int.not_lt.1 hneg
    have h1 := Int.not_le.1 hend
    rw [stepOnce_inside h0 h1, stepOnce_inside (s := s.inRun) h0 h1]
    exact fetchExec_inRun ..

/-- A round of a RUN is the STEP, carried into the run, and the end of the round. -/
theorem step_inRun (hr : s.runState = .idle) (h : step s = .next t) : step s.inRun = .next t.inRun.endRound := by
  have hrun : s.inRun.runState = .running := congrArg RunState.inRun hr
  rw [step_of_running hrun, stepOnce_inRun, ← step_of_idle hr, h, mapNext_next, mapNext_next]

/-- Induction on the fuel: each round of the run is one STEP, and the round that ends it leaves what the STEP leaves. -/
theorem iterate_hostStep_eq_runLoop (fuel : Nat) (hP : s.prog.wf = true) (hr : s.runState = .idle)
    (hend : (runLoop fuel s.inRun).2 ≠ .stillRunning) :
    ∃ n, 1 ≤ n ∧ n ≤ fuel ∧ Nat.iterate (fun u => (hostStep u).1) n s = (runLoop fuel s.inRun).1 := by
  induction fuel generalizing s with
  | zero => exact absurd rfl hend
  | succ fuel ih =>
    obtain ⟨t, ht⟩ := step_answers hP
    have hround := step_inRun hr ht
    have hone : (hostStep s).1 = t := by
      obtain ⟨r, hres⟩ := step_result hP ht
      rw [hostStep_of_next (by simp [hr]) ht hres]
    obtain ⟨hres, hsame⟩ | ⟨hres, hidle⟩ | ⟨k, rfl⟩ := step_round hP (by simp [hr]) ht
    · rw [State.endRound_of_continues (t := t.inRun) hres] at hround
      rw [runLoop_continues hround hres] at hend ⊢
      obtain ⟨n, _, hn, hiter⟩ := ih (step_keeps_wf hP ht) (hsame.trans hr) hend
      exact ⟨n + 1, Nat.le_add_left .., Nat.succ_le_succ hn, (congrArg _ hone).trans hiter⟩
    · rw [State.endRound_inRun_of_ends hidle hres] at hround
      rw [runLoop_halts hround hres]
      exact ⟨1, le_rfl, Nat.le_add_left .., hone⟩
    · rw [runLoop_faults hround (State.raise_result s k)]
      exact ⟨1, le_rfl, Nat.le_add_left .., hone⟩

/-- Settles O46: RUN is its loop from the IDLE block carried into a run. -/
theorem runIsRepeatedSingleSteps : Obligations.RunIsRepeatedSingleSteps := by
  intro fuel s hP hr hend
  have hrun : hostRun fuel s = runLoop fuel s.inRun := by rw [hostRun_of_idle hr, State.inRun, hr, RunState.inRun]
  rw [hrun] at hend ⊢
  exact iterate_hostStep_eq_runLoop fuel hP hr hend

end Sys2Proof.Machine

/-! PROOFS. `load`: its two outcomes, and the range of what it loads (spec/41_load.md R100, R101). -/

namespace Sys2Proof.Machine

section
variable {dst : Byte} {imm16 : Half} {s : State}

theorem exec_load_of_lt (h : dst.toNat < 32) : exec (.load dst imm16) s =
    .next ((s.setReg ⟨dst.toNat, h⟩ (sextImm imm16)).retire (seqPc s.pc 4) true) := withDst_of_lt h _

theorem exec_load_of_ge (h : 32 ≤ dst.toNat) : exec (.load dst imm16) s = .next (s.raise .addressing) :=
  withDst_of_ge h _

end

/-- Sign extension keeps the signed value (spec/00_scope.md R9). -/
@[simp] theorem toInt_sextImm (imm16 : Half) : (sextImm imm16).toInt = imm16.toInt :=
  BitVec.toInt_signExtend_of_le (by decide)

/-- The range of a signed 16-bit immediate. -/
theorem half_range (imm16 : Half) : -32768 ≤ imm16.toInt ∧ imm16.toInt ≤ 32767 := by
  have lo := BitVec.le_toInt imm16
  have hi := BitVec.toInt_lt (x := imm16)
  omega

/-- Settles O14: the register holds the immediate's own signed value, a 16-bit one. -/
theorem loadedConstantsAreSixteenBit : Obligations.LoadedConstantsAreSixteenBit := by
  intro dst imm16 s t h ht
  rw [exec_load_of_lt h] at ht
  cases ht
  simpa using half_range imm16

/-- Settles O9: either outcome of the write port's check; `signExtend` is by definition `ofInt` of the signed value. -/
theorem loadWritesSignExtendedImmediate : Obligations.LoadWritesSignExtendedImmediate :=
  fun _ _ _ => ⟨exec_load_of_lt, exec_load_of_ge⟩

end Sys2Proof.Machine

/-! PROOFS. `add`, `sub`, `mul` and `div`: their outcomes with good and with bad register fields, and what the wrapped
and the divided results are as integers (spec/42_arithmetic.md R105 to R111). -/

namespace Sys2Proof.Machine

section
variable {src1 src2 dst : Byte} {s t : State}

/-- One field of 32 or more makes the instruction ill-formed (R69). -/
theorem regFieldsOk_eq_false (h : 32 ≤ src1.toNat ∨ 32 ≤ src2.toNat ∨ 32 ≤ dst.toNat) :
    (regFieldOk src1 && regFieldOk src2 && regFieldOk dst) = false := by
  simp only [regFieldOk, Bool.and_eq_false_iff, decide_eq_false_iff_not]
  omega

/-! `add`, `sub` and `mul` (R105 to R108). -/

theorem arith_of_lt (f : Word → Word → Word) (h1 : src1.toNat < 32) (h2 : src2.toNat < 32) (h3 : dst.toNat < 32) :
    arith f src1 src2 dst s = .next ((s.setReg ⟨dst.toNat, h3⟩ (f (s.x ⟨src1.toNat, h1⟩) (s.x ⟨src2.toNat, h2⟩))).retire
      (seqPc s.pc 4) true) := by
  rw [arith, withSrc_of_lt h1, withSrc_of_lt h2, withDst_of_lt h3]

theorem arith_of_ge (f : Word → Word → Word) (h : 32 ≤ src1.toNat ∨ 32 ≤ src2.toNat ∨ 32 ≤ dst.toNat) :
    arith f src1 src2 dst s = .next (s.raise .addressing) :=
  arith_addressing_iff.2 (regFieldsOk_eq_false h)

theorem arith_result {f : Word → Word → Word} (h1 : src1.toNat < 32) (h2 : src2.toNat < 32) (h3 : dst.toNat < 32)
    (h : arith f src1 src2 dst s = .next t) :
    t.regs[dst.toNat] = f s.regs[src1.toNat] s.regs[src2.toNat] := by
  rw [arith_of_lt f h1 h2 h3] at h
  cases h
  simp [State.x]

/-! `div` (R109). -/

theorem execDiv_of_divFault {k : FaultKind} (h1 : src1.toNat < 32) (h2 : src2.toNat < 32) (h3 : dst.toNat < 32)
    (hk : divFault s.regs[src1.toNat] s.regs[src2.toNat] = some k) :
    execDiv src1 src2 dst s = .next (s.raise k) := by
  rw [execDiv, withSrc_of_lt h1, withSrc_of_lt h2, withDst_of_lt h3]
  simp only [State.x, hk]

theorem execDiv_of_no_divFault (h1 : src1.toNat < 32) (h2 : src2.toNat < 32) (h3 : dst.toNat < 32)
    (hk : divFault s.regs[src1.toNat] s.regs[src2.toNat] = none) :
    execDiv src1 src2 dst s =
      .next (((s.setReg ⟨dst.toNat, h3⟩ (aluQuot s.regs[src1.toNat] s.regs[src2.toNat])).setRemainder
        (aluRem s.regs[src1.toNat] s.regs[src2.toNat])).retire (seqPc s.pc 4) true) := by
  rw [execDiv, withSrc_of_lt h1, withSrc_of_lt h2, withDst_of_lt h3]
  simp only [State.x, hk]

theorem execDiv_of_ge (h : 32 ≤ src1.toNat ∨ 32 ≤ src2.toNat ∨ 32 ≤ dst.toNat) :
    execDiv src1 src2 dst s = .next (s.raise .addressing) :=
  execDiv_addressing_iff.2 (regFieldsOk_eq_false h)

/-- A `div` that reports EXECUTED took no arithmetic fault, and left the ALU's quotient and remainder. -/
theorem execDiv_executed {cont : Bool} (h1 : src1.toNat < 32) (h2 : src2.toNat < 32) (h3 : dst.toNat < 32)
    (h : execDiv src1 src2 dst s = .next t) (hres : t.result = some (.executed cont)) :
    divFault s.regs[src1.toNat] s.regs[src2.toNat] = none ∧
    t.regs[dst.toNat] = aluQuot s.regs[src1.toNat] s.regs[src2.toNat] ∧
    t.remainder = aluRem s.regs[src1.toNat] s.regs[src2.toNat] := by
  cases hk : divFault s.regs[src1.toNat] s.regs[src2.toNat] with
  | some k =>
    rw [execDiv_of_divFault h1 h2 h3 hk] at h
    cases h
    simp at hres
  | none =>
    rw [execDiv_of_no_divFault h1 h2 h3 hk] at h
    cases h
    exact ⟨rfl, by simp, rfl⟩

end

section
variable {A B : Word}

/-! The arithmetic faults of R109, and the results where there is none. -/

theorem divFault_of_zero (hB : B.toInt = 0) : divFault A B = some .divideByZero := if_pos hB

theorem divFault_of_overflow (hA : A.toInt = -2147483648) (hB : B.toInt = -1) :
    divFault A B = some .divideOverflow := by simp [divFault, hA, hB]

theorem divFault_eq_none_iff :
    divFault A B = none ↔ B.toInt ≠ 0 ∧ ¬ (A.toInt = -2147483648 ∧ B.toInt = -1) := by
  unfold divFault
  split
  · simp [*]
  · split <;> simp [*]

/-- Without a fault the quotient fits in 32 bits: only -2^31 / -1 does not. -/
theorem toInt_aluQuot (h : divFault A B = none) : (aluQuot A B).toInt = A.toInt.tdiv B.toInt := by
  obtain ⟨-, hov⟩ := divFault_eq_none_iff.1 h
  have hne : A ≠ BitVec.intMin 32 ∨ B ≠ -1#32 := by
    rw [← not_and_or]
    rintro ⟨rfl, rfl⟩
    exact hov (by decide)
  have hsdiv := BitVec.toInt_sdiv_of_ne_or_ne A B hne
  rw [aluQuot, wrap32, quotient, ← hsdiv, BitVec.ofInt_toInt]

/-- The remainder always fits. -/
theorem toInt_aluRem (A B : Word) : (aluRem A B).toInt = A.toInt.tmod B.toInt := by
  rw [aluRem_eq, ← BitVec.toInt_srem, BitVec.ofInt_toInt]

end

/-- The remainder of truncating division is smaller than the divisor. -/
theorem natAbs_tmod_lt (a : Int) {b : Int} (hb : b ≠ 0) : (a.tmod b).natAbs < b.natAbs := by
  rw [Int.natAbs_tmod]
  exact Nat.mod_lt _ (Int.natAbs_pos.2 hb)

/-- The remainder of truncating division is 0 or has the dividend's sign. -/
theorem tmod_eq_zero_or_sign (a b : Int) : a.tmod b = 0 ∨ (a.tmod b).sign = a.sign := by
  by_cases hdvd : b ∣ a
  · exact .inl (Int.tmod_eq_zero_of_dvd hdvd)
  · exact .inr (by rw [Int.sign_tmod, if_neg hdvd])

/-- Settles O12: without a fault the quotient and the remainder are those of truncating division, exactly. -/
theorem divisionIdentityHolds : Obligations.DivisionIdentityHolds := by
  intro src1 src2 dst s t h1 h2 h3 ht hres
  obtain ⟨hk, hquot, hrem⟩ := execDiv_executed h1 h2 h3 ht hres
  simp only [hquot, hrem, toInt_aluQuot hk, toInt_aluRem]
  obtain ⟨hB, -⟩ := divFault_eq_none_iff.1 hk
  exact ⟨(Int.tdiv_mul_add_tmod _ _).symm, natAbs_tmod_lt _ hB, tmod_eq_zero_or_sign _ _⟩

/-- Settles O13: the wrapped results are 32-bit addition, subtraction and multiplication, which have no sign. -/
theorem wrappedArithmeticIsSignAgnostic : Obligations.WrappedArithmeticIsSignAgnostic := by
  intro src1 src2 dst s t h1 h2 h3
  refine ⟨fun h => ?_, fun h => ?_, fun h => ?_⟩
  · rw [arith_result h1 h2 h3 h, aluAdd_eq, BitVec.toNat_add]
  · rw [arith_result h1 h2 h3 h, aluSub_eq, BitVec.toNat_sub, Nat.add_comm]
  · rw [arith_result h1 h2 h3 h, aluMul_eq, BitVec.toNat_mul]

/-- Settles O10: either outcome of the register checks, whichever operation the ALU does. -/
theorem addSubMulWriteWrappedResult : Obligations.AddSubMulWriteWrappedResult := fun _ _ _ _ =>
  ⟨fun h1 h2 h3 => ⟨arith_of_lt aluAdd h1 h2 h3, arith_of_lt aluSub h1 h2 h3, arith_of_lt aluMul h1 h2 h3⟩,
   fun h => ⟨arith_of_ge aluAdd h, arith_of_ge aluSub h, arith_of_ge aluMul h⟩⟩

/-- Settles O11: the register checks, then the arithmetic faults, then the commit. -/
theorem divWritesQuotientAndRemainder : Obligations.DivWritesQuotientAndRemainder := by
  intro src1 src2 dst s
  refine ⟨fun h1 h2 h3 => ⟨fun hB hov => ?_, fun hB => ?_, fun hA hB => ?_⟩, execDiv_of_ge⟩
  · rw [← aluRem_eq]
    exact execDiv_of_no_divFault h1 h2 h3 (divFault_eq_none_iff.2 ⟨hB, hov⟩)
  · exact execDiv_of_divFault h1 h2 h3 (divFault_of_zero hB)
  · exact execDiv_of_divFault h1 h2 h3 (divFault_of_overflow hA hB)

end Sys2Proof.Machine

/-! PROOFS. The six comparisons: what each leaves with good and with bad source fields (spec/43_compare.md R115 to
R121). -/

namespace Sys2Proof.Machine

section
variable {src1 src2 : Byte} {s : State}

theorem comparison_of_lt (rel : Word → Word → Bool) (h1 : src1.toNat < 32) (h2 : src2.toNat < 32) :
    comparison rel src1 src2 s = .next ((s.setEqualFlag (rel s.regs[src1.toNat] s.regs[src2.toNat])).retire
      (seqPc s.pc 4) true) := by
  rw [comparison, withSrc_of_lt h1, withSrc_of_lt h2]
  rfl

theorem comparison_of_ge (rel : Word → Word → Bool) (h : 32 ≤ src1.toNat ∨ 32 ≤ src2.toNat) :
    comparison rel src1 src2 s = .next (s.raise .addressing) :=
  comparison_addressing_iff.2 (by
    simpa only [regFieldOk, Bool.and_eq_false_iff, decide_eq_false_iff_not, Nat.not_lt] using h)

end

/-- Settles O15: either outcome of the register checks, whichever relation the instruction computes. -/
theorem comparisonsWriteSignedRelation : Obligations.ComparisonsWriteSignedRelation := fun _ _ _ _ =>
  ⟨fun h1 h2 => ⟨comparison_of_lt relEq h1 h2, comparison_of_lt relNeq h1 h2, comparison_of_lt relGte h1 h2,
    comparison_of_lt relLte h1 h2, comparison_of_lt relLt h1 h2, comparison_of_lt relGt h1 h2⟩,
   fun h => ⟨comparison_of_ge relEq h, comparison_of_ge relNeq h, comparison_of_ge relGte h, comparison_of_ge relLte h,
    comparison_of_ge relLt h, comparison_of_ge relGt h⟩⟩

end Sys2Proof.Machine

/-! PROOFS. The jumps, `hlt` and `illegal`: what each leaves with a good and with a bad register field, and the step at
an illegal opcode byte (spec/44_control.md R126 to R130). -/

namespace Sys2Proof.Machine

section
variable {r : Byte} {s : State}

/-- A jump whose register field is good sets the pc to its target and changes nothing else. -/
theorem jump_of_lt (target : Word → PcVal) (h : r.toNat < 32) :
    (withSrc r s fun T => .next (s.retire (target T) true)) = .next (s.retire (target s.regs[r.toNat]) true) :=
  withSrc_of_lt h _

theorem jump_of_ge (target : Word → PcVal) (h : 32 ≤ r.toNat) :
    (withSrc r s fun T => .next (s.retire (target T) true)) = .next (s.raise .addressing) :=
  withSrc_of_ge h _

/-- With the flag set, `jmpe` is `jmp`. -/
theorem execJmpe_of_flag (hf : s.equalFlag = true) : execJmpe r s = execJmp r s := by
  simp only [execJmpe, execJmp, hf, if_true]

/-- With the flag clear, `jmpe` reads its register and falls through. -/
theorem execJmpe_of_no_flag (hf : s.equalFlag = false) :
    execJmpe r s = withSrc r s fun _ => .next (s.retire (seqPc s.pc 2) true) := by
  simp only [execJmpe, hf, Bool.false_eq_true, if_false]

/-- The register of `jmpe` is checked whatever the flag holds (decision D13). -/
theorem execJmpe_of_ge (h : 32 ≤ r.toNat) : execJmpe r s = .next (s.raise .addressing) := withSrc_of_ge h _

end

/-- Settles O17: either outcome of the register check; `signExtend` is by definition `ofInt` of the signed value. -/
theorem jmpSetsAbsoluteTarget : Obligations.JmpSetsAbsoluteTarget := fun _ _ => ⟨jump_of_lt absPc, jump_of_ge absPc⟩

/-- Settles O18: the same two outcomes, with a target relative to the byte after the `jmpf`. -/
theorem jmpfSetsRelativeTarget : Obligations.JmpfSetsRelativeTarget := fun _ s =>
  ⟨jump_of_lt (relPc s.pc), jump_of_ge (relPc s.pc)⟩

/-- Settles O19: the flag chooses between the register and the next address, and the register is checked first. -/
theorem jmpeJumpsWhenFlagIsTrue : Obligations.JmpeJumpsWhenFlagIsTrue := by
  intro r s
  refine ⟨fun h hf => ?_, fun h hf => ?_, execJmpe_of_ge⟩
  · exact (execJmpe_of_flag hf).trans (jump_of_lt absPc h)
  · exact (execJmpe_of_no_flag hf).trans (jump_of_lt (fun _ => seqPc s.pc 2) h)

/-- Settles O20: SEQ over the one byte of `hlt`, with the continue signal false. -/
theorem hltAdvancesByOneAndStops : Obligations.HltAdvancesByOneAndStops := fun _ => rfl

theorem exec_illegal (s : State) : exec .illegal s = .next (s.raise .decode) := rfl

/-- Settles O21: the fault entry of DecodeFault, written out. -/
theorem illegalTakesDecodeFault : Obligations.IllegalTakesDecodeFault := exec_illegal

/-- Where an offset of a canonical program memory holds `b`, decoding from there on starts with `b`. -/
theorem decode_drop_of_read {P : Memory} {a : Nat} {b : Byte} (hP : P.wf = true) (hb : P.read a = some b) :
    decode (P.bytes.drop a) = decodeOperands (decodeOpcode b) (P.bytes.drop (a + 1)) := by
  rw [Memory.read_eq hP] at hb
  obtain ⟨hlt, rfl⟩ := List.getElem?_eq_some_iff.1 hb
  rw [List.drop_eq_getElem_cons hlt, decode]

/-- An illegal opcode byte at the pc is the instruction `illegal`, whatever follows it: it has no operand bytes. -/
theorem executes_illegal {s : State} {b : Byte} (hP : s.prog.wf = true) (hf : s.runState ≠ .faulted)
    (h0 : 0 ≤ s.pc.toInt) (hb : s.prog.read s.fetchOffset = some b) (hop : decodeOpcode b = .illegal) :
    s.executes .illegal := by
  have hin : s.fetchOffset < s.prog.len := (Memory.read_isSome hP _).1 (by rw [hb]; rfl)
  have hlt : s.pc.toInt < (s.prog.len : Int) := by
    rw [State.fetchOffset] at hin
    omega
  exact ⟨⟨hf, h0, hlt⟩, _, by rw [decode_drop_of_read hP hb, hop]; rfl⟩

/-- Settles O30: the byte decodes to `illegal`, which executes and takes DecodeFault, IDLE or RUNNING. -/
theorem illegalByteTakesDecodeFault : Obligations.IllegalByteTakesDecodeFault := by
  intro s b hP hf h0 hb hge
  have he : s.executes .illegal := executes_illegal hP hf h0 hb (decodeOpcode_of_ge hge)
  exact step_of_stepOnce_raise hf ((stepOnce_executes hP he).trans (exec_illegal s))

end Sys2Proof.Machine

/-! PROOFS. The host's view of a stopped block: a fault stays until RESET, STEP and RUN report it, and READ shows the
whole state (spec/60_exceptions.md R145, R152; spec/70_reset_and_hazards.md R165). -/

namespace Sys2Proof.Machine

variable {s : State}

/-! STEP and RUN on a FAULTED block. -/

theorem hostStep_of_faulted (h : s.runState = .faulted) :
    hostStep s = (s.report (.fault s.faultKind), .stepped (.fault s.faultKind)) :=
  hostStep_of_next (by simp [h]) (step_of_faulted h) (State.report_result ..)

theorem hostRun_of_faulted (fuel : Nat) (h : s.runState = .faulted) : hostRun fuel s = (s, .faulted s.faultKind) := by
  simp only [hostRun, h]

/-- Settles O43: STEP is phase 0 of the step, and RUN does not start its loop. -/
theorem faultedBlockReportsItsFault : Obligations.FaultedBlockReportsItsFault := fun fuel _ h =>
  ⟨hostStep_of_faulted h, hostRun_of_faulted fuel h⟩

/-! In a FAULTED block, commands other than RESET write at most program memory and the model's own result port. -/

theorem hostClear_of_not_running (h : s.runState ≠ .running) : hostClear s = ({ s with prog := [] }, .none) :=
  if_neg h

theorem hostAppend_writes_prog_only (bytes : List Byte) (h : s.runState ≠ .running) :
    ∃ P, (hostAppend bytes s).1 = { s with prog := P } := by
  by_cases hfit : s.prog.len + bytes.length ≤ Config.progMax
  · exact ⟨_, congrArg Prod.fst (hostAppend_of_fits h hfit)⟩
  · exact ⟨s.prog, congrArg Prod.fst (hostAppend_of_exceeds h (Nat.not_le.1 hfit))⟩

theorem command_of_faulted (fuel : Nat) {c : Command} (h : s.runState = .faulted) (hc : c ≠ .reset) :
    ∃ P r, (command fuel c s).1 = { s with prog := P, result := r } := by
  have hrun : s.runState ≠ .running := by simp [h]
  cases c with
  | reset => exact absurd rfl hc
  | clear => exact ⟨_, s.result, congrArg Prod.fst (hostClear_of_not_running hrun)⟩
  | append bytes =>
    obtain ⟨P, hP⟩ := hostAppend_writes_prog_only bytes hrun
    exact ⟨P, s.result, hP⟩
  | step => exact ⟨s.prog, _, congrArg Prod.fst (hostStep_of_faulted h)⟩
  | run => exact ⟨s.prog, s.result, congrArg Prod.fst (hostRun_of_faulted fuel h)⟩
  | read => exact ⟨s.prog, s.result, hostRead_state s⟩

/-- Induction on the commands: each leaves the block FAULTED, so the next one meets the same case. -/
theorem session_of_faulted (fuel : Nat) (cs : List Command) (h : s.runState = .faulted) (hcs : .reset ∉ cs) :
    ∃ P r, session fuel cs s = { s with prog := P, result := r } := by
  induction cs generalizing s with
  | nil => exact ⟨s.prog, s.result, rfl⟩
  | cons c cs ih =>
    obtain ⟨hc, hcs⟩ := not_or.1 (mt List.mem_cons.2 hcs)
    obtain ⟨P, r, hone⟩ := command_of_faulted fuel h (Ne.symm hc)
    rw [session, hone]
    exact ih (s := { s with prog := P, result := r }) h hcs

/-- Settles O42: the session leaves the FAULTED state with another program and another result at most. -/
theorem faultStaysUntilReset : Obligations.FaultStaysUntilReset := by
  intro fuel cs s h hcs
  obtain ⟨P, r, hend⟩ := session_of_faulted fuel cs h hcs
  rw [hend]

/-! READ. -/

theorem hostRead_of_not_running (h : s.runState ≠ .running) : hostRead s = (s, .values s.readValues) := if_neg h

theorem RunState.code_eq_zero_iff (r : RunState) : r.code = 0 ↔ r = .idle := by cases r <;> decide

theorem RunState.code_eq_two_iff (r : RunState) : r.code = 2 ↔ r = .faulted := by cases r <;> decide

/-- Settles O51: READ's values are the state's own fields, `run_state` by its encoding. -/
theorem readReturnsWholeState : Obligations.ReadReturnsWholeState := fun s h =>
  ⟨s.readValues, hostRead_of_not_running h, rfl, rfl, rfl, rfl, rfl, rfl, rfl, s.runState.code_eq_zero_iff,
    s.runState.code_eq_two_iff, rfl⟩

end Sys2Proof.Machine

/-! PROOFS. Reset and hazards (spec/70_reset_and_hazards.md R160 to R165): the invariant under the host commands, RESET
and CLEAR, a RUN with nothing to execute, and the commands a RUN in progress refuses. -/

namespace Sys2Proof.Machine

variable {s : State}

/-- Settles O40: each command keeps the invariant, RUN by induction on the fuel of its loop. -/
theorem hostCommandsKeepInvariant : Obligations.HostCommandsKeepInvariant := fun fuel c _ => command_keeps_inv fuel c

/-! RESET and CLEAR. -/

theorem command_reset (fuel : Nat) (s : State) : command fuel .reset s = (s.resetBlock, .none) := rfl

@[simp] theorem State.resetBlock_x (s : State) (i : Fin 32) : s.resetBlock.x i = 0 := State.reset_x i

/-- Settles O2: every field but the program is the one of `State.reset`. -/
theorem resetCommandRestoresBlockAndKeepsProgram : Obligations.ResetCommandRestoresBlockAndKeepsProgram :=
  ⟨rfl, fun fuel s => ⟨s.resetBlock, command_reset fuel s, s.resetBlock_x, rfl, rfl, rfl, rfl, rfl, rfl, rfl⟩⟩

/-- RESET leaves the block IDLE, so CLEAR is accepted and empties the one field that RESET kept. -/
theorem hostClear_hostReset (s : State) : (hostClear (hostReset s).1).1 = State.reset := by
  have hidle : (hostReset s).1.runState ≠ .running := RunState.noConfusion
  rw [hostClear_of_not_running hidle]
  rfl

/-- Settles O52: CLEAR is accepted when no run is in progress, and RESET ends one. -/
theorem clearEmptiesTheProgram : Obligations.ClearEmptiesTheProgram := fun s =>
  ⟨hostClear_of_not_running, hostClear_hostReset s⟩

/-! A RUN with nothing to execute. -/

/-- A RUN that starts at or past the end of the program is over in its first round, IDLE again (R96, R164). -/
theorem hostRun_at_end (fuel : Nat) (hr : s.runState = .idle) (hend : (s.prog.len : Int) ≤ s.pc.toInt) :
    hostRun (fuel + 1) s = (s.report .notExecuted, .halted) := by
  have hround : step { s with runState := .running } = .next (s.report .notExecuted) := by
    rw [step_at_end (s := { s with runState := .running }) RunState.noConfusion hend, ← hr]
    rfl
  rw [hostRun_of_idle hr, runLoop_halts hround (.inr (State.report_result ..))]

/-- Settles O48: an empty program ends at offset 0. -/
theorem runOnEmptyProgramHaltsAtOnce : Obligations.RunOnEmptyProgramHaltsAtOnce := by
  intro fuel s hr hprog h0
  have hend : (s.prog.len : Int) ≤ s.pc.toInt := by rwa [hprog]
  exact hostRun_at_end fuel hr hend

/-! Commands during a RUN. -/

/-- Settles O53: the check of `run_state` comes first in every command but RESET. -/
theorem commandsDuringRunAreRefused : Obligations.CommandsDuringRunAreRefused := by
  intro fuel c s hr hc
  cases c with
  | reset => exact absurd rfl hc
  | clear | append bytes | step | read => exact if_pos hr
  | run => simp only [command, hostRun, hr]

end Sys2Proof.Machine
